-- ==== Sys2Proof/Word.lean ====
section
/-! DEFINITION. The words of the engine (00_scope.md R7, R10): every datum is one byte, the program
counter alone is wider. -/

namespace Sys2Proof

/-- A memory cell, a register, an opcode, an operand: 8 bits, unsigned (R7, R53). -/
abbrev Byte := BitVec 8

/-- A data address: the value of the stack pointer, always inside 0..255 (R52). -/
abbrev Addr := BitVec 8

/-- The program counter's 9 bits (R26): it can hold 256, one past the last cell. -/
abbrev PcVal := BitVec 9

end Sys2Proof
end

