-- ==== Sys2Proof/Syntax.lean ====
section
/-! DEFINITION. The six instructions (30_encoding.md R75), one constructor per row of spec/opcode_table.json. A register operand is
the whole operand byte, 0..255 (R73): an index of 8 or more is decoded and faults when it executes. -/

namespace Sys2Proof

/-- The names in the mnemonic column of the Dispatch Table (R75). -/
inductive Mnemonic where
  | hlt | ldi | prn | mul | push | pop
  deriving DecidableEq, Repr

/-- An instruction with the operand bytes its handler is passed, operand_a first (R95). -/
inductive Instr where
  /-- HLT (R134) -/
  | hlt
  /-- LDI a, imm (R130) -/
  | ldi (a imm : Byte)
  /-- PRN a (R132) -/
  | prn (a : Byte)
  /-- MUL a, b (R124) -/
  | mul (a b : Byte)
  /-- PUSH a (R110) -/
  | push (a : Byte)
  /-- POP a (R112) -/
  | pop (a : Byte)
  deriving DecidableEq, Repr

/-- The mnemonic of an instruction. -/
def Instr.mnemonic : Instr → Mnemonic
  | .hlt => .hlt
  | .ldi _ _ => .ldi
  | .prn _ => .prn
  | .mul _ _ => .mul
  | .push _ => .push
  | .pop _ => .pop

end Sys2Proof
end

