-- ==== Sys2Proof/Decode.lean ====
section
/-! DEFINITION. The formats, the Dispatch Table, the decoder and the encoder (30_encoding.md R70..R79, 40_engine.md R95). -/

namespace Sys2Proof

/-- The four formats (R71). -/
inductive Format where
  /-- opcode alone: HLT -/
  | f0
  /-- opcode, register index: PRN, PUSH, POP -/
  | f1r
  /-- opcode, register index, immediate: LDI -/
  | f2ri
  /-- opcode, register index, register index: MUL -/
  | f2rr
  deriving DecidableEq, Repr

/-- One row of the Dispatch Table: "records how many operand bytes each handler consumes" explicitly, as data (R70, R95). -/
structure DispatchRow where
  opcode : Byte
  mnemonic : Mnemonic
  format : Format
  arity : Nat
  deriving DecidableEq, Repr

/-- "the complete reachable instruction set" (R75). It is fixed at construction (R43). -/
def dispatchTable : List DispatchRow :=
  [ { opcode := 0x01, mnemonic := .hlt, format := .f0, arity := 0 },
    { opcode := 0x82, mnemonic := .ldi, format := .f2ri, arity := 2 },
    { opcode := 0x47, mnemonic := .prn, format := .f1r, arity := 1 },
    { opcode := 0xA2, mnemonic := .mul, format := .f2rr, arity := 2 },
    { opcode := 0x45, mnemonic := .push, format := .f1r, arity := 1 },
    { opcode := 0x46, mnemonic := .pop, format := .f1r, arity := 1 } ]

/-- R77: the row whose opcode equals all 8 bits of `op`, or none. -/
def lookupOpcode (op : Byte) : Option DispatchRow :=
  dispatchTable.find? (fun row => row.opcode == op)

/-- Why bytes are no instruction. -/
inductive Reject where
  /-- the opcode byte has no Dispatch Table entry (R77); a step raises UnknownOpcode -/
  | unknownOpcode (op : Byte)
  /-- a byte stream ends inside an instruction (only of the stream decoder: a step always fetches three bytes) -/
  | truncated
  deriving DecidableEq, Repr

/-- The instruction a mnemonic makes of the operand bytes, positionally (R71, R95); a byte that is not an operand is dropped. -/
def Mnemonic.withOperands (m : Mnemonic) (b1 b2 : Byte) : Instr :=
  match m with
  | .hlt => .hlt
  | .ldi => .ldi b1 b2
  | .prn => .prn b1
  | .mul => .mul b1 b2
  | .push => .push b1
  | .pop => .pop b1

/-- Decoding the three bytes a step fetches: total, and decided by the opcode byte alone (R77). -/
def decode (op b1 b2 : Byte) : Except Reject Instr :=
  match lookupOpcode op with
  | none => .error (.unknownOpcode op)
  | some row => .ok (row.mnemonic.withOperands b1 b2)

/-- R79: the first instruction of a byte stream and the bytes after it. The length is 1 + the arity of the opcode's row. -/
def decodeStream : List Byte → Except Reject (Instr × List Byte)
  | [] => .error .truncated
  | op :: rest =>
    match lookupOpcode op with
    | none => .error (.unknownOpcode op)
    | some row =>
      if rest.length < row.arity then .error .truncated
      else .ok (row.mnemonic.withOperands (rest.getD 0 0) (rest.getD 1 0), rest.drop row.arity)

/-- All instructions of a byte stream, at most `fuel` of them; "Instructions follow one another with no padding" (R79). -/
def decodeUpTo : Nat → List Byte → Except Reject (List Instr)
  | _, [] => .ok []
  | 0, _ :: _ => .error .truncated
  | fuel + 1, op :: rest =>
    match decodeStream (op :: rest) with
    | .error e => .error e
    | .ok (i, later) =>
      match decodeUpTo fuel later with
      | .error e => .error e
      | .ok is => .ok (i :: is)

/-- All instructions of a byte stream; every instruction takes a byte or more, so the stream's length is fuel enough. -/
def decodeProgram (bytes : List Byte) : Except Reject (List Instr) :=
  decodeUpTo bytes.length bytes

/-- The opcode column of R75. -/
def Mnemonic.opcode : Mnemonic → Byte
  | .hlt => 0b00000001
  | .ldi => 0b10000010
  | .prn => 0b01000111
  | .mul => 0b10100010
  | .push => 0b01000101
  | .pop => 0b01000110

/-- The arity column of R75. -/
def Mnemonic.arity : Mnemonic → Nat
  | .hlt => 0
  | .ldi => 2
  | .prn => 1
  | .mul => 2
  | .push => 1
  | .pop => 1

/-- Width = 1 + arity (R70). -/
def Mnemonic.width (m : Mnemonic) : Nat := 1 + m.arity

/-- The operand bytes of an instruction, operand_a first (R71). -/
def Instr.operandBytes : Instr → List Byte
  | .hlt => []
  | .ldi a imm => [a, imm]
  | .prn a => [a]
  | .mul a b => [a, b]
  | .push a => [a]
  | .pop a => [a]

/-- The bytes of an instruction at increasing addresses, opcode first (R53, R71). -/
def encode (i : Instr) : List Byte := i.mnemonic.opcode :: i.operandBytes

/-- The bytes of a program: its instructions one after another with no padding (R79). -/
def encodeProgram : List Instr → List Byte
  | [] => []
  | i :: is => encode i ++ encodeProgram is

/-- Byte `k` of an instruction whose bits are `w`, bits at `nbits` and above read as 0; the first byte holds bits 7..0. -/
def tableByte (nbits w k : Nat) : Byte := BitVec.ofNat 8 ((w % 2 ^ nbits) / 2 ^ (8 * k))

/-- The instruction the decoder reads from a row's bits, numbered as spec/opcode_table.json numbers them. -/
def decodeTableWord (nbits w : Nat) : Option Instr :=
  match decode (tableByte nbits w 0) (tableByte nbits w 1) (tableByte nbits w 2) with
  | .ok i => some i
  | .error _ => none

end Sys2Proof
end

