-- ==== Sys2Proof/Config.lean ====
section
/-! DEFINITION. The parameters of the hardware (00_scope.md R7, R8) and the two settings the spec leaves to a model:
`UNWRITTEN_READ` and the values drawn for R0..R6 at reset (10_state.md R25). No instruction leaves a result open,
so no free value stands here. -/

namespace Sys2Proof

/-- The two settings of the parameter `UNWRITTEN_READ` (R25). -/
inductive UnwrittenRead where
  /-- a read of R0..R6 that nothing has written since reset raises the model-only fault of R148 -/
  | fault
  /-- such a read returns the value drawn for the register at reset -/
  | draw
  deriving DecidableEq, Repr

namespace Config

/-- `MEM_SIZE`: addresses 0..255 (R7, R50). -/
def memSize : Nat := 256

/-- `SP_INDEX`: the stack pointer is slot 7 of the register file (R7, R24). -/
def spIndex : Fin 8 := 7

/-- `SP_RESET` (R7, R24). -/
def spReset : Byte := 0xF4

/-- `PC_RESET` (R7, R26). -/
def pcReset : PcVal := 0

/-- `LOAD_BASE`: the address of the program image's first byte (R7, R44). -/
def loadBase : Nat := 0

/-- What a memory cell holds until something writes it: "allocated once at machine construction, zeroed" (R63). -/
def memReset : Byte := 0

/-- DESIGN CHOICE (log entry 2, safe): of the two settings R25 gives a model, the machine runs with `draw`, so
that a read of an unwritten register gives its value and raises nothing. -/
def unwrittenRead : UnwrittenRead := .draw

/-- DESIGN CHOICE (log entry 1, unsafe): the values of R0..R6 at `State.reset`; the spec calls them UNSPECIFIED (R25). -/
def resetDraw : Vector Byte 7 := #v[0, 0, 0, 0, 0, 0, 0]

end Config

end Sys2Proof
end

