-- ==== Sys2Proof/Machine/State.lean ====
section
/-! DEFINITION. The state of the engine (10_state.md R36: "Nothing else is state"), the reasons a step can stop, and
the state after reset (70_reset_and_hazards.md R170). All of it is plain data. -/

namespace Sys2Proof.Machine

/-- The 256 cells of R50 as (address, byte) pairs: addresses strictly rising, no entry that holds `Config.memReset`. -/
abbrev Memory := List Host.Cell

/-- The engine state of R28. The source's running flag is true exactly in `running`. -/
inductive EngineState where
  /-- the engine takes steps -/
  | running
  /-- HLT has executed; terminal -/
  | halted
  /-- a fault has been raised; terminal -/
  | faulted
  deriving DecidableEq, Repr

/-- The fault record of R31, read-only to the host and written only by fault entry (R146). -/
structure FaultRecord where
  /-- `fault_cause`: 0 = no fault, otherwise the code of R140 -/
  cause : BitVec 3
  /-- `fault_pc`: the pc of the faulting instruction -/
  pc : PcVal
  /-- `fault_info`: the byte R140 names for the cause -/
  info : Byte
  deriving DecidableEq, Repr

/-- The fault kind that exists only in a model (R140, R148). It has no `fault_cause` code, so it stands beside the record. -/
inductive ModelFault where
  /-- UnwrittenRegisterRead of register `r`: an instruction read R0..R6 before any instruction wrote it (R148) -/
  | unwrittenRegisterRead (r : Fin 7)
  deriving DecidableEq, Repr

/-- The architectural state (R36): `mem`, `x`, `pc`, `state`, the fault record, `out`, and what a model keeps beside it: the
set `written` (R36) and the name of the model-only fault (R148). -/
structure State where
  /-- the Memory (R35, R50) -/
  mem : Memory
  /-- the Register File R0..R7; slot 7 is the stack pointer (R20, R24) -/
  regs : Vector Byte 8
  /-- the program counter, a byte address (R26) -/
  pc : PcVal
  /-- the engine state; the running flag (R28) -/
  state : EngineState
  /-- the fault record (R31) -/
  fault : FaultRecord
  /-- the output stream, oldest value first (R40) -/
  out : List Byte
  /-- which of R0..R6 an instruction has written since reset (R36: bookkeeping, not hardware state) -/
  written : Vector Bool 7
  /-- the model-only fault taken, if one was: R148's "a model records it under its own name"; not hardware state (log entry 17) -/
  modelFault : Option ModelFault
  deriving DecidableEq, Repr

/-- The hardware fault kinds of R140. None of them stops the model: fault entry (R146) is a next state. -/
inductive FaultKind where
  /-- the opcode byte has no Dispatch Table entry (R141) -/
  | unknownOpcode
  /-- a register operand byte is 8..255 (R143) -/
  | registerIndexOutOfRange
  /-- SP would leave 0..255 (R144) -/
  | stackBoundaryViolation
  /-- pc + 2 > 255 (R142) -/
  | fetchOutOfRange
  /-- the ALU was given an operation that is not ADD or MUL; unreachable from programs (R145) -/
  | unsupportedALUOperation
  deriving DecidableEq, Repr

/-- Reasons the model itself stops with a fault: there is none. Every fault the spec names, the model-only one too, is entered
as R146 describes and is a next state, and no address outside 0..255 can be named (R52). Safe. -/
inductive Fault where
  deriving DecidableEq, Repr

/-- Reasons the model gives an instruction no meaning. -/
inductive Refusal where
  /-- An instruction with no meaning yet; raised by a refused arm of `exec` only. No arm is refused. Safe. -/
  | notModelled (mnemonic : String)
  deriving DecidableEq, Repr

/-- Reset (R170), with `d` the values R0..R6 hold: R25's setting `draw` admits every `d`. -/
def State.resetDrawing (d : Vector Byte 7) : State :=
  { mem := []
    regs := d.push Config.spReset
    pc := Config.pcReset
    state := .running
    fault := { cause := 0, pc := 0, info := 0 }
    out := []
    written := Vector.replicate 7 false
    modelFault := none }

/-- The machine right after reset (R48, R170). DESIGN CHOICE (log entry 1, unsafe): R0..R6 hold `Config.resetDraw`. -/
def State.reset : State := State.resetDrawing Config.resetDraw

end Sys2Proof.Machine
end

