-- ==== Sys2Proof/Machine/Memory.lean ====
section
/-! DEFINITION. Memory as "pure storage, no behavior" (20_memory.md R55): read and write of one cell, and the canonical form. -/

namespace Sys2Proof.Machine

/-- The byte last stored at `a`, or what reset left there (R58, R63). -/
def Memory.read : Memory → Nat → Byte
  | [], _ => Config.memReset
  | (b, w) :: m, a => if a = b then w else Memory.read m a

/-- Store `v` at `a`, keeping the canonical form: the value of an unlisted cell is never listed. -/
def Memory.write : Memory → Nat → Byte → Memory
  | [], a, v => if v = Config.memReset then [] else [(a, v)]
  | (b, w) :: m, a, v =>
    if a < b then (if v = Config.memReset then (b, w) :: m else (a, v) :: (b, w) :: m)
    else if a = b then (if v = Config.memReset then m else (a, v) :: m)
    else (b, w) :: Memory.write m a v

/-- The canonical form: addresses strictly rising and inside 0..255 (R50), no entry equal to an unlisted cell. -/
abbrev Memory.wf (m : Memory) : Prop :=
  m.Pairwise (fun c c' => c.1 < c'.1) ∧ ∀ c ∈ m, c.1 < Config.memSize ∧ c.2 ≠ Config.memReset

end Sys2Proof.Machine
end

