-- ==== Sys2Proof/Machine/Ops.lean ====
section
/-! DEFINITION. The named operations of 00_scope.md R11 over registers, memory, output and pc; fault entry (60_exceptions.md R146); and
how a handler's result becomes the step's result (40_engine.md R90, R97). There is no return from a fault (R150), so none is here. -/

namespace Sys2Proof.Machine

/-- `x[r]` (R11). No register is hardwired (R21). -/
def State.reg (s : State) (r : Fin 8) : Byte := s.regs[r]

/-- `x[r] <- v` (R11, R23); the register joins the set of written registers, of which only R0..R6 can be members (R36). -/
def State.setReg (s : State) (r : Fin 8) (v : Byte) : State :=
  { s with
    regs := s.regs.set r v
    written := if h : r.val < 7 then s.written.set r.val true else s.written }

/-- `SP` is another name for `x[7]` (R11, R24). -/
def State.sp (s : State) : Byte := s.reg Config.spIndex

/-- `SP <- v`. -/
def State.setSp (s : State) (v : Byte) : State := s.setReg Config.spIndex v

/-- `MemRead(a, 1)` (R11). A data address is inside 0..255 by its type (R52). -/
def State.memRead (s : State) (a : Addr) : Byte := s.mem.read a.toNat

/-- `MemWrite(a, 1, v)` (R11). -/
def State.memWrite (s : State) (a : Addr) (v : Byte) : State := { s with mem := s.mem.write a.toNat v }

/-- `emit(v)` appends to the output stream (R11, R40). -/
def State.emit (s : State) (v : Byte) : State := { s with out := s.out ++ [v] }

/-- `pc <- v` (R11). -/
def State.setPc (s : State) (v : PcVal) : State := { s with pc := v }

/-- What `raise` ends an instruction with (R11): a hardware fault and its info byte, or the model-only fault of R148. -/
inductive Raised where
  | fault (kind : FaultKind) (info : Byte)
  | unwritten (r : Fin 7)
  deriving DecidableEq, Repr

/-- `fault_cause` codes (R140). The values 6 and 7 are never written. -/
def FaultKind.code : FaultKind → BitVec 3
  | .unknownOpcode => 1
  | .registerIndexOutOfRange => 2
  | .stackBoundaryViolation => 3
  | .fetchOutOfRange => 4
  | .unsupportedALUOperation => 5

/-- Fault entry (R146): the record is written and the state becomes Faulted, in one atomic action on the state BEFORE the
instruction, whose pc is the instruction's address. -/
def State.takeFault (s : State) (kind : FaultKind) (info : Byte) : State :=
  { s with
    fault := { cause := kind.code, pc := s.pc, info := info }
    state := .faulted }

/-- Entry of the model-only fault, "entered like any other fault (rule R146)": `fault_pc` is this pc, the state becomes Faulted,
and none of the instruction's own writes is made (R148). It has no code and the spec gives it no info byte, so those two
fields keep what they hold and the fault is recorded under its own name. DESIGN CHOICE (log entry 17, safe). -/
def State.takeUnwritten (s : State) (r : Fin 7) : State :=
  { s with
    fault := { s.fault with pc := s.pc }
    state := .faulted
    modelFault := some (.unwrittenRegisterRead r) }

/-- The state that raising leaves, made from the state before the instruction (R146, R148). -/
def State.afterRaise (s : State) : Raised → State
  | .fault kind info => s.takeFault kind info
  | .unwritten r => s.takeUnwritten r

/-- The outcome of an instruction that raises: the fault is taken, whichever it is (R146, R148). -/
def raiseFrom (s : State) (r : Raised) : Host.Outcome State Fault Refusal := .next (s.afterRaise r)

/-- `x[r]` under a setting of `UNWRITTEN_READ` (R25, R148): with `fault`, R0..R6 can be read only once written. -/
def State.readReg (u : UnwrittenRead) (s : State) (r : Fin 8) : Except Raised Byte :=
  match u with
  | .draw => .ok (s.reg r)
  | .fault =>
    if h : r.val < 7 then
      if s.written[r.val] then .ok (s.reg r) else .error (.unwritten ⟨r.val, h⟩)
    else .ok (s.reg r)

/-- The end of a step (R90): commit the handler's writes and, but for HLT, `pc <- p + width` (R97); or raise and commit nothing. -/
def complete (m : Mnemonic) (s : State) (handler : Except Raised State) : Host.Outcome State Fault Refusal :=
  match handler with
  | .error r => raiseFrom s r
  | .ok t => .next (if m = .hlt then t else t.setPc (s.pc + BitVec.ofNat 9 m.width))

end Sys2Proof.Machine
end

