-- ==== Sys2Proof/Machine/Operands.lean ====
section
/-! DEFINITION. The operand forms (30_encoding.md R73, R74): a register index and an immediate, each a whole byte. -/

namespace Sys2Proof.Machine

/-- A register-index operand (R22, R73): 0..7 name R0..R7; 8..255 raise, "must not silently wrap the index". -/
def regOperand (a : Byte) : Except Raised (Fin 8) :=
  if h : a.toNat < 8 then .ok ⟨a.toNat, h⟩ else .error (.fault .registerIndexOutOfRange a)

/-- The immediate of LDI: the byte as it is, not extended, scaled or shifted (R74). -/
def immOperand (imm : Byte) : Byte := imm

end Sys2Proof.Machine
end

