-- ==== Sys2Proof/Machine/Alu.lean ====
section
/-! DEFINITION. The ALU (42_alu.md R120..R123) and the one instruction that reaches it, MUL (R124). -/

namespace Sys2Proof.Machine

/-- An operation name given to the ALU (R121). It implements ADD and MUL; `other` is any other name. -/
inductive AluOp where
  | add
  | mul
  | other (name : String)
  deriving DecidableEq, Repr

/-- The operations the ALU implements (R122, R123), both modulo 256; `none` for "Any other operation name" (R121). -/
def AluOp.compute : AluOp → Option (Byte → Byte → Byte)
  | .add => some (fun va vb => va + vb)
  | .mul => some (fun va vb => va * vb)
  | .other _ => none

/-- `alu(operation, ra, rb)` (R121): both registers are read before x[ra] is written. It leaves pc to the step (R97, C3).
The unsupported operation is raised before the reads, so that the model-only fault stays last (R147). -/
def alu (u : UnwrittenRead) (op : AluOp) (ra rb : Byte) (s : State) : Except Raised State := do
  let a ← regOperand ra
  let b ← regOperand rb
  match op.compute with
  | none => .error (.fault .unsupportedALUOperation 0)
  | some f =>
    let va ← s.readReg u a
    let vb ← s.readReg u b
    .ok (s.setReg a (f va vb))

/-- `exec_MUL(a, b)` (R124): "reg_a ← reg_a * reg_b via ALU". -/
def handleMul (u : UnwrittenRead) (a b : Byte) (s : State) : Except Raised State := alu u .mul a b s

/-- MUL under a setting of `UNWRITTEN_READ` (R124, R148). -/
def execMulUnder (u : UnwrittenRead) (a b : Byte) (s : State) : Host.Outcome State Fault Refusal :=
  complete .mul s (handleMul u a b s)

/-- The meaning of MUL a, b (R124). -/
def execMul (a b : Byte) (s : State) : Host.Outcome State Fault Refusal :=
  execMulUnder Config.unwrittenRead a b s

end Sys2Proof.Machine
end

