-- ==== Sys2Proof/Machine/LoadPrintHalt.lean ====
section
/-! DEFINITION. LDI (43_load_print_halt.md R130), PRN (R132) and HLT (R134). -/

namespace Sys2Proof.Machine

/-- `exec_HLT()` (R134): the running flag becomes false. -/
def handleHlt (s : State) : Except Raised State := .ok { s with state := .halted }

/-- The meaning of HLT (R134); pc keeps the address of the HLT (the spec's decision D5, log entry 8). -/
def execHlt (s : State) : Host.Outcome State Fault Refusal := complete .hlt s (handleHlt s)

/-- `exec_LDI(a, imm)` (R130). The immediate is never checked. -/
def handleLdi (a imm : Byte) (s : State) : Except Raised State := do
  let r ← regOperand a
  .ok (s.setReg r (immOperand imm))

/-- The meaning of LDI a, imm (R130). -/
def execLdi (a imm : Byte) (s : State) : Host.Outcome State Fault Refusal :=
  complete .ldi s (handleLdi a imm s)

/-- `exec_PRN(a)` (R132). -/
def handlePrn (u : UnwrittenRead) (a : Byte) (s : State) : Except Raised State := do
  let r ← regOperand a
  let v ← s.readReg u r
  .ok (s.emit v)

/-- PRN under a setting of `UNWRITTEN_READ` (R132, R148). -/
def execPrnUnder (u : UnwrittenRead) (a : Byte) (s : State) : Host.Outcome State Fault Refusal :=
  complete .prn s (handlePrn u a s)

/-- The meaning of PRN a (R132). -/
def execPrn (a : Byte) (s : State) : Host.Outcome State Fault Refusal :=
  execPrnUnder Config.unwrittenRead a s

end Sys2Proof.Machine
end

