-- ==== Sys2Proof/Machine/Stack.lean ====
section
/-! DEFINITION. The stack instructions PUSH (41_stack.md R110) and POP (R112). -/

namespace Sys2Proof.Machine

/-- `exec_PUSH(a)` (R110). The statements are sequential: x[a] is read after SP is decremented, so PUSH R7 stores the
decremented SP (R111; the spec's decision D10, log entry 9). The order of the raises is R147's. -/
def handlePush (u : UnwrittenRead) (a : Byte) (s : State) : Except Raised State := do
  let r ← regOperand a
  if s.sp = 0 then .error (.fault .stackBoundaryViolation s.sp)
  else
    let s1 := s.setSp (s.sp - 1)
    let v ← s1.readReg u r
    .ok (s1.memWrite s1.sp v)

/-- PUSH under a setting of `UNWRITTEN_READ` (R110, R148). -/
def execPushUnder (u : UnwrittenRead) (a : Byte) (s : State) : Host.Outcome State Fault Refusal :=
  complete .push s (handlePush u a s)

/-- The meaning of PUSH a (R110). -/
def execPush (a : Byte) (s : State) : Host.Outcome State Fault Refusal :=
  execPushUnder Config.unwrittenRead a s

/-- The stack pointer POP leaves, computed without wrapping as a number 1..256 (R112): POP R7 increments the value it popped. -/
def poppedSp (s : State) (r : Fin 8) : Nat :=
  (if r = Config.spIndex then (s.memRead s.sp).toNat else s.sp.toNat) + 1

/-- `exec_POP(a)` (R112): read at the current SP, then the register, then SP. POP reads no register but SP, so it takes no
setting of `UNWRITTEN_READ`. -/
def handlePop (a : Byte) (s : State) : Except Raised State := do
  let r ← regOperand a
  if poppedSp s r > 255 then .error (.fault .stackBoundaryViolation s.sp)
  else .ok ((s.setReg r (s.memRead s.sp)).setSp (BitVec.ofNat 8 (poppedSp s r)))

/-- The meaning of POP a (R112). -/
def execPop (a : Byte) (s : State) : Host.Outcome State Fault Refusal :=
  complete .pop s (handlePop a s)

end Sys2Proof.Machine
end

