-- ==== Sys2Proof/Machine/Fetch.lean ====
section
/-! DEFINITION. Fetching and decoding at the program counter (40_engine.md R92..R94). -/

namespace Sys2Proof.Machine

/-- The three bytes at pc, pc+1 and pc+2, read "unconditionally (even if unused)"; the range check comes before any read,
whatever the instruction (R92, R93). -/
def fetch (s : State) : Except Raised (Byte × Byte × Byte) :=
  if s.pc.toNat + 2 > 255 then .error (.fault .fetchOutOfRange 0)
  else
    let p : Addr := s.pc.setWidth 8
    .ok (s.memRead p, s.memRead (p + 1), s.memRead (p + 2))

/-- Fetch, then look the opcode up; an opcode with no entry raises UnknownOpcode with the opcode as info (R94). -/
def fetchDecode (s : State) : Except Raised Instr := do
  let (op, b1, b2) ← fetch s
  match decode op b1 b2 with
  | .ok i => .ok i
  | .error _ => .error (.fault .unknownOpcode op)

/-- `s` with the bytes `op`, `b1`, `b2` stored where the next step fetches them; `s` itself where no step can fetch (R92). -/
def placeAtPc (s : State) (op b1 b2 : Byte) : State :=
  if s.pc.toNat + 2 > 255 then s
  else
    let p : Addr := s.pc.setWidth 8
    ((s.memWrite p op).memWrite (p + 1) b1).memWrite (p + 2) b2

end Sys2Proof.Machine
end

