-- ==== Sys2Proof/Machine/Step.lean ====
section
/-! DEFINITION. One step of the engine (40_engine.md R90), and the host's way to place one instruction where the step fetches it. -/

namespace Sys2Proof.Machine

/-- R90: while Running, fetch, decode and execute one instruction. In Halted and Faulted "the engine does nothing further"
(R98): DESIGN CHOICE (log entry 4, safe), the step answers the state unchanged. -/
def step (s : State) : Host.Outcome State Fault Refusal :=
  match s.state with
  | .halted => .next s
  | .faulted => .next s
  | .running =>
    match fetchDecode s with
    | .error r => raiseFrom s r
    | .ok i => exec i s

/-- `s` with the instruction of a table row's bits stored at the program counter, its first byte at the lowest address (R53). -/
def State.withFetchWord (s : State) (nbits w : Nat) : State :=
  placeAtPc s (tableByte nbits w 0) (tableByte nbits w 1) (tableByte nbits w 2)

end Sys2Proof.Machine
end

