-- ==== Sys2Proof/Machine/Text.lean ====
section
/-! DEFINITION. Numbers as text: the decimal form that the host's rendering of the output (10_state.md R40) and the assembler
(30_encoding.md R80) share. Text is a list of characters. -/

namespace Sys2Proof.Machine

/-- One decimal digit as a character. -/
def digitChar (k : Nat) : Char := Char.ofNat (48 + k)

/-- A byte in decimal, without sign and without leading zeros (R40). -/
def decimalText (v : Byte) : List Char :=
  (if v.toNat ≥ 100 then [digitChar (v.toNat / 100)] else [])
    ++ (if v.toNat ≥ 10 then [digitChar (v.toNat / 10 % 10)] else [])
    ++ [digitChar (v.toNat % 10)]

/-- One value of the output stream as the host renders it: a decimal line ended by one line feed, byte 0x0A (R40). -/
def renderLine (v : Byte) : List Char := decimalText v ++ [Char.ofNat 0x0A]

/-- The whole output stream as text, "in the order the PRN instructions executed" (R40). -/
def renderOut : List Byte → List Char
  | [] => []
  | v :: vs => renderLine v ++ renderOut vs

end Sys2Proof.Machine
end

