-- ==== Sys2Proof/WellFormed.lean ====
section
/-! DEFINITION. Well-formed instructions: every register operand names a register (10_state.md R22, 30_encoding.md R73). These are the
instructions that have an assembler spelling (R81). The others are encodable too; they decode and fault when they execute. -/

namespace Sys2Proof

/-- Operand bytes 0..7 name R0..R7; the values 8..255 name no register (R73). -/
def namesRegister (a : Byte) : Bool := decide (a.toNat < 8)

/-- Every register operand of the instruction names a register; the immediate of LDI is never one (R143). -/
def Instr.wellFormed : Instr → Bool
  | .hlt => true
  | .ldi a _ => namesRegister a
  | .prn a => namesRegister a
  | .mul a b => namesRegister a && namesRegister b
  | .push a => namesRegister a
  | .pop a => namesRegister a

end Sys2Proof
end

