-- ==== Sys2Proof/Machine/Assembler.lean ====
section
/-! DEFINITION. The assembler syntax (30_encoding.md R80, R81): the text of an instruction and the reading of program text. What R80
leaves open of it (blanks, empty statements, the case of hexadecimal digits) is log entry 15. -/

namespace Sys2Proof.Machine

/-- Mnemonics are upper case (R80). -/
def mnemonicText : Mnemonic → List Char
  | .hlt => ['H', 'L', 'T']
  | .ldi => ['L', 'D', 'I']
  | .prn => ['P', 'R', 'N']
  | .mul => ['M', 'U', 'L']
  | .push => ['P', 'U', 'S', 'H']
  | .pop => ['P', 'O', 'P']

/-- A register is written R0..R7; a register operand of 8..255 "has no assembler spelling" (R81). -/
def registerText (a : Byte) : Option (List Char) :=
  if namesRegister a then some ['R', digitChar a.toNat] else none

/-- The statement of an instruction: mnemonic, then its operands separated by commas, in the order of the encoding (R80). -/
def instrText (i : Instr) : Option (List Char) :=
  let name := mnemonicText i.mnemonic
  match i with
  | .hlt => some name
  | .ldi a imm => (registerText a).map (fun r => name ++ [' '] ++ r ++ [','] ++ decimalText imm)
  | .prn a => (registerText a).map (fun r => name ++ [' '] ++ r)
  | .mul a b =>
    match registerText a, registerText b with
    | some r, some q => some (name ++ [' '] ++ r ++ [','] ++ q)
    | _, _ => none
  | .push a => (registerText a).map (fun r => name ++ [' '] ++ r)
  | .pop a => (registerText a).map (fun r => name ++ [' '] ++ r)

/-- Cut a text at every character that is a separator. -/
def cutAt (sep : Char → Bool) : List Char → List (List Char)
  | [] => [[]]
  | c :: cs =>
    match cutAt sep cs with
    | [] => [[c]]
    | w :: ws => if sep c then [] :: w :: ws else (c :: w) :: ws

/-- A space or a tab. -/
def isBlank (c : Char) : Bool := c == ' ' || c == '\t'

/-- A text without the blanks at its two ends. -/
def trimBlanks (cs : List Char) : List Char :=
  ((cs.dropWhile isBlank).reverse.dropWhile isBlank).reverse

/-- The value of a digit of base 16 or less. -/
def digitValue (c : Char) : Option Nat :=
  let n := c.toNat
  if 48 ≤ n ∧ n ≤ 57 then some (n - 48)
  else if 65 ≤ n ∧ n ≤ 70 then some (n - 55)
  else if 97 ≤ n ∧ n ≤ 102 then some (n - 87)
  else none

/-- The number a run of digits writes in a base, read after a value `acc` already read. -/
def digitsFrom (base : Nat) : Nat → List Char → Option Nat
  | acc, [] => some acc
  | acc, c :: cs =>
    match digitValue c with
    | none => none
    | some d => if d < base then digitsFrom base (base * acc + d) cs else none

/-- A non-empty run of digits in a base. -/
def numberIn (base : Nat) : List Char → Option Nat
  | [] => none
  | c :: cs => digitsFrom base 0 (c :: cs)

/-- An immediate: decimal, or with a 0b or 0x prefix, 0..255 (R80). -/
def readImmediate (cs : List Char) : Option Byte :=
  let value :=
    match cs with
    | '0' :: 'b' :: ds => numberIn 2 ds
    | '0' :: 'x' :: ds => numberIn 16 ds
    | ds => numberIn 10 ds
  match value with
  | some n => if n < 256 then some (BitVec.ofNat 8 n) else none
  | none => none

/-- A register: R0..R7, or SP for R7 (R80). -/
def readRegister : List Char → Option Byte
  | ['S', 'P'] => some 7
  | ['R', d] =>
    match digitValue d with
    | some n => if n < 8 then some (BitVec.ofNat 8 n) else none
    | none => none
  | _ => none

/-- A mnemonic of R75; there are no pseudo-instructions (R81). -/
def readMnemonic (cs : List Char) : Option Mnemonic :=
  [Mnemonic.hlt, .ldi, .prn, .mul, .push, .pop].find? (fun m => mnemonicText m == cs)

/-- One statement without blanks at its ends (R80). -/
def readStatement (cs : List Char) : Option Instr :=
  let name := cs.takeWhile (fun c => !isBlank c)
  let rest := trimBlanks (cs.drop name.length)
  let operands := if rest = [] then [] else (cutAt (fun c => c == ',') rest).map trimBlanks
  match readMnemonic name, operands with
  | some .hlt, [] => some .hlt
  | some .ldi, [a, imm] =>
    match readRegister a, readImmediate imm with
    | some r, some v => some (.ldi r v)
    | _, _ => none
  | some .prn, [a] => (readRegister a).map .prn
  | some .mul, [a, b] =>
    match readRegister a, readRegister b with
    | some r, some q => some (.mul r q)
    | _, _ => none
  | some .push, [a] => (readRegister a).map .push
  | some .pop, [a] => (readRegister a).map .pop
  | _, _ => none

/-- All of a list of statements, or none if one has no reading. -/
def readAll : List (List Char) → Option (List Instr)
  | [] => some []
  | cs :: rest =>
    match readStatement cs, readAll rest with
    | some i, some is => some (i :: is)
    | _, _ => none

/-- Program text: "statements are separated by `;` or a new line" (R80); empty statements are skipped (log entry 15). -/
def readProgram (cs : List Char) : Option (List Instr) :=
  readAll (((cutAt (fun c => c == ';' || c == '\n') cs).map trimBlanks).filter (fun t => t != []))

/-- The program image of an assembler text. -/
def assemble (cs : List Char) : Option (List Byte) := (readProgram cs).map encodeProgram

end Sys2Proof.Machine
end

