-- ==== Sys2Proof/Machine/Boundary.lean ====
section
/-! DEFINITION. The block's boundary with the host (10_state.md R40, R41, R44..R46; boot: 70_reset_and_hazards.md R171). The names of the transactions
are the spec's. Whether Start has been given is a field of `Block`, not of `State`: R36 lists the state and adds "Nothing
else is state" (log entry 11). -/

namespace Sys2Proof.Machine

/-- Where a block stands between Reset and Start (R41, R171). -/
inductive Phase where
  /-- after Reset: the host may load and start; no step is taken -/
  | awaitingStart
  /-- after Start: the engine steps while Running; the host writes nothing (R45) -/
  | started
  deriving DecidableEq, Repr

/-- The block as the host sees it. It comes to exist by Reset, "machine construction" (R170). -/
structure Block where
  phase : Phase
  engine : State
  deriving DecidableEq, Repr

/-- The transactions of R41 that change a block. Out is part of Step (`outsOf`); Status and Debug are observations. -/
inductive Transaction where
  /-- Reset, with the values R0..R6 come to hold (R25) -/
  | reset (d : Vector Byte 7)
  /-- Load(addr, byte) -/
  | load (addr : Addr) (byte : Byte)
  /-- Start -/
  | start
  /-- Step, internal to the block -/
  | step
  deriving DecidableEq, Repr

/-- The block after Reset, with `d` the values of R0..R6 (R170). -/
def Block.afterReset (d : Vector Byte 7) : Block :=
  { phase := .awaitingStart, engine := State.resetDrawing d }

/-- R41's column "allowed when": `none` where the transaction is not allowed. Reset is allowed at any time; Load and Start
after Reset and before Start; Step after Start, while Running. -/
def Block.apply (b : Block) : Transaction → Option Block
  | .reset d => some (Block.afterReset d)
  | .load addr byte =>
    match b.phase with
    | .awaitingStart => some { b with engine := b.engine.memWrite addr byte }
    | .started => none
  | .start =>
    match b.phase with
    | .awaitingStart => some { b with phase := .started }
    | .started => none
  | .step =>
    match b.phase with
    | .awaitingStart => none
    | .started =>
      if b.engine.state = .running then
        match step b.engine with
        | .next t => some { b with engine := t }
        | .fault _ => none
        | .refused _ => none
      else none

/-- Transactions one after another, as long as each is allowed. -/
def Block.applyAll (b : Block) : List Transaction → Option Block
  | [] => some b
  | x :: xs =>
    match b.apply x with
    | some b' => b'.applyAll xs
    | none => none

/-- The Load transactions of an image, into addresses a, a+1, a+2, ... (R171). -/
def loadsFrom : Nat → List Byte → List Transaction
  | _, [] => []
  | a, v :: vs => .load (BitVec.ofNat 8 a) v :: loadsFrom (a + 1) vs

/-- The values of the Out events of a step from `s` to `t`: what the step appended to the stream (R40, R41). -/
def outsOf (s t : State) : List Byte := t.out.drop s.out.length

/-- The bytes of an image into consecutive addresses from `a` on (R44). -/
def State.storeBytes (s : State) : Nat → List Byte → State
  | _, [] => s
  | a, v :: vs => (s.memWrite (BitVec.ofNat 8 a) v).storeBytes (a + 1) vs

/-- Loading a program image: at most 256 bytes from address 0, "refuses an image longer than 256 bytes"; the bytes are not
validated (R44). -/
def State.loadImage (s : State) (image : List Byte) : Option State :=
  if image.length ≤ Config.memSize then some (s.storeBytes Config.loadBase image) else none

/-- Boot (R171): Reset, Load of the image, Start. -/
def boot (d : Vector Byte 7) (image : List Byte) : Option Block :=
  match (State.resetDrawing d).loadImage image with
  | some s => some { phase := .started, engine := s }
  | none => none

/-- What Status carries: the state and the fault record (R41). -/
structure StatusView where
  state : EngineState
  fault : FaultRecord
  deriving DecidableEq, Repr

/-- The Status observation, any time, read-only (R41). -/
def Block.status (b : Block) : StatusView := { state := b.engine.state, fault := b.engine.fault }

/-- What Debug carries: pc, the three bytes at pc, the eight registers (R46). -/
structure DebugView where
  pc : PcVal
  byte0 : Option Byte
  byte1 : Option Byte
  byte2 : Option Byte
  regs : Vector Byte 8
  deriving DecidableEq, Repr

/-- "A byte whose address is 256 or more is reported as absent" (R46). -/
def State.byteIfPresent (s : State) (a : Nat) : Option Byte :=
  if a < Config.memSize then some (s.mem.read a) else none

/-- The Debug observation, any time, read-only (R41, R46). -/
def Block.observe (b : Block) : DebugView :=
  { pc := b.engine.pc
    byte0 := b.engine.byteIfPresent b.engine.pc.toNat
    byte1 := b.engine.byteIfPresent (b.engine.pc.toNat + 1)
    byte2 := b.engine.byteIfPresent (b.engine.pc.toNat + 2)
    regs := b.engine.regs }

end Sys2Proof.Machine
end

