-- ==== Sys2Proof/Machine/Flags.lean ====
section
/-! DEFINITION. "The hardware has no condition codes, no flags register and no predicates" (10_state.md R30) and the ALU gives no carry,
overflow, zero or sign (42_alu.md R120): there is no flag computation. The one flag is the running flag. -/

namespace Sys2Proof.Machine

/-- The running flag: "true exactly when `state = Running`" (R28). -/
def State.runningFlag (s : State) : Bool := decide (s.state = .running)

end Sys2Proof.Machine
end

