-- ==== Sys2Proof/Safety.lean ====
section
/-! DEFINITION. What the claims are stated with: the invariant of the engine, the two ends of a run (40_engine.md R99), and instructions executed
one after another. -/

namespace Sys2Proof.Machine

/-- A fault record that says truly why the engine stopped (R140, R146). Code 5 is unreachable from programs (R126), 0, 6 and 7 are
never written by a fault (R31). Faults change nothing else, so the record can still be held against pc, memory and SP. -/
abbrev State.FaultExplained (s : State) : Prop :=
  s.fault.pc = s.pc ∧
  ((s.fault.cause = 1 ∧ s.pc.toNat ≤ 253 ∧ s.mem.read s.pc.toNat = s.fault.info ∧ lookupOpcode s.fault.info = none) ∨
   (s.fault.cause = 2 ∧ s.pc.toNat ≤ 253 ∧ 8 ≤ s.fault.info.toNat) ∨
   (s.fault.cause = 3 ∧ s.pc.toNat ≤ 253 ∧ s.fault.info = s.sp) ∨
   (s.fault.cause = 4 ∧ 254 ≤ s.pc.toNat ∧ s.fault.info = 0))

/-- The model-only fault of R148, told truly: the named register is unwritten, `fault_pc` is this pc, and the record's cause and
info are still those of no fault. -/
abbrev State.UnwrittenExplained (s : State) (q : Fin 7) : Prop :=
  s.fault = { cause := 0, pc := s.pc, info := 0 } ∧ s.pc.toNat ≤ 253 ∧ s.written[q] = false

/-- The invariant every step keeps, under both settings of `UNWRITTEN_READ`: memory canonical and inside 0..255 (R50), pc at most
256 (R26), the output no longer than the pc allows (a PRN is two bytes, R27), no fault recorded until one is taken
(R31), and after it a record that is true: a hardware fault's (R146) or the model-only fault's (R148). -/
abbrev State.Inv (s : State) : Prop :=
  s.mem.wf ∧
  s.pc.toNat ≤ 256 ∧
  2 * s.out.length ≤ s.pc.toNat ∧
  (s.state ≠ .faulted → s.fault = { cause := 0, pc := 0, info := 0 } ∧ s.modelFault = none) ∧
  (s.state = .faulted → s.modelFault = none → s.FaultExplained) ∧
  (∀ q : Fin 7, s.modelFault = some (.unwrittenRegisterRead q) → s.UnwrittenExplained q)

/-- A run has ended: "when `state` leaves `Running`" (R99). -/
abbrev State.Ended (s : State) : Prop := s.state ≠ .running

/-- A safe run of `n` steps: it answers a state and no fault has been raised (R99: a run that faults ends in failure). -/
def SafeFor (n : Nat) (s : State) : Prop :=
  ∃ t, Host.Core.run core n s = .next t ∧ t.state ≠ .faulted

/-- `exec` under a setting of `UNWRITTEN_READ` (R25): with `draw` it is `exec`; with `fault` it is the checking machine of R148,
which takes the model-only fault where a result would depend on an unspecified reset value. -/
def execUnder (u : UnwrittenRead) (i : Instr) (s : State) : Host.Outcome State Fault Refusal :=
  match i with
  | .hlt => execHlt s
  | .ldi a imm => execLdi a imm s
  | .prn a => execPrnUnder u a s
  | .mul a b => execMulUnder u a b s
  | .push a => execPushUnder u a s
  | .pop a => execPop a s

/-- `step` under a setting of `UNWRITTEN_READ` (R25, R90). -/
def stepUnder (u : UnwrittenRead) (s : State) : Host.Outcome State Fault Refusal :=
  match s.state with
  | .halted => .next s
  | .faulted => .next s
  | .running =>
    match fetchDecode s with
    | .error r => raiseFrom s r
    | .ok i => execUnder u i s

/-- Register `q` holds a value that the spec fixes: SP, or a register written since reset (R25). -/
def State.Known (s : State) (q : Fin 8) : Prop := ∀ h : q.val < 7, s.written[q.val] = true

/-- Two states that differ at most in registers nothing has written since reset, whose values R25 leaves unspecified. -/
def SameButUnwritten (s t : State) : Prop :=
  t.mem = s.mem ∧ t.pc = s.pc ∧ t.state = s.state ∧ t.fault = s.fault ∧ t.out = s.out ∧ t.written = s.written ∧
  t.modelFault = s.modelFault ∧ ∀ q, s.Known q → t.reg q = s.reg q

/-- The handlers of a list of instructions one after another, without fetching them, as long as each answers a next state. -/
def execAll : List Instr → State → Host.Outcome State Fault Refusal
  | [], s => .next s
  | i :: is, s =>
    match exec i s with
    | .next t => execAll is t
    | .fault r => .fault r
    | .refused r => .refused r

end Sys2Proof.Machine
end

