-- ==== Sys2Proof/Certificates/Slice0/Obligations.lean ====
section
/-! DEFINITION. The statements for the provers. `exec i s` is the meaning of one instruction, `step` the engine's step. A rule that the
spec marks [decision] or [derived] is the spec's own choice or inference: the docstring names it, and the entry in
OBLIGATIONS.json has basis 'derived'. -/

open Sys2Proof Sys2Proof.Machine

/-! ## Reset and encoding -/

/-- The state after Reset (70_reset_and_hazards.md section 1), for EVERY value `d` of R0..R6, which the spec leaves UNSPECIFIED. That
`State.reset` draws zeros is the model's choice (log entry 1) and is not stated: only that it is one of these states. -/
def Obligations.ResetLeavesTheSpecifiedState : Prop :=
  (∃ d, State.reset = State.resetDrawing d) ∧
  ∀ d : Vector Byte 7,
    (∀ a, (State.resetDrawing d).mem.read a = 0) ∧
    (State.resetDrawing d).sp = 244 ∧
    (∀ q : Fin 7, (State.resetDrawing d).reg q.castSucc = d[q]) ∧
    (State.resetDrawing d).pc = 0 ∧
    (State.resetDrawing d).state = .running ∧
    (State.resetDrawing d).fault = { cause := 0, pc := 0, info := 0 } ∧
    (State.resetDrawing d).out = [] ∧
    (∀ q : Fin 7, (State.resetDrawing d).written[q] = false) ∧ (State.resetDrawing d).modelFault = none

/-- A word of each row of the opcode map, written out from it, decodes to its instruction (30_encoding.md sections 3 and 4). The
three `decodeTableWord` clauses are the model's choice (log entry 13): how a table word's bits are laid out as bytes, the bits at
`nbits` and above read as 0. -/
def Obligations.OpcodeMapWordsDecode : Prop :=
  decode 0b00000001 0x82 0x08 = .ok .hlt ∧
  decode 0b10000010 0x00 0x08 = .ok (.ldi 0 8) ∧
  decode 0b01000111 0x05 0x01 = .ok (.prn 5) ∧
  decode 0b10100010 0x02 0x03 = .ok (.mul 2 3) ∧
  decode 0b01000101 0x07 0x46 = .ok (.push 7) ∧
  decode 0b01000110 0xFF 0x00 = .ok (.pop 0xFF) ∧
  decodeTableWord 24 0x080082 = some (.ldi 0 8) ∧
  decodeTableWord 16 0x080582 = some (.ldi 5 0) ∧
  decodeTableWord 8 0xA0 = none

/-- Decoding is total on the opcode byte: six values have a row and the other 250 are rejected by name, whatever the operand
bytes (30_encoding.md section 3; the spec marks it derived). -/
def Obligations.OtherOpcodesAreRejected : Prop :=
  ∀ op b1 b2 : Byte,
    (op ∈ [(0x01 : Byte), 0x45, 0x46, 0x47, 0x82, 0xA2] → ∃ i, decode op b1 b2 = .ok i) ∧
    (op ∉ [(0x01 : Byte), 0x45, 0x46, 0x47, 0x82, 0xA2] → decode op b1 b2 = .error (.unknownOpcode op))

/-- The bytes of every program, well-formed or not, decode back to it: no operand bit is dropped and no length is misread. -/
def Obligations.ProgramBytesDecodeBack : Prop :=
  ∀ is : List Instr, decodeProgram (encodeProgram is) = .ok is

/-- The other direction: bytes that decode as a program are exactly that program's encoding, so each byte string has one reading. -/
def Obligations.DecodedProgramsEncodeBack : Prop :=
  ∀ (bytes : List Byte) (is : List Instr), decodeProgram bytes = .ok is → encodeProgram is = bytes

/-- R72: the three bytes are read at every step whatever the opcode, and a byte that is not an operand of the instruction at pc has
no effect on it: overwriting it leaves the instruction fetched the same. -/
def Obligations.UnusedBytesHaveNoEffect : Prop :=
  ∀ s : State, s.mem.wf → s.pc.toNat ≤ 253 →
    fetch s = .ok (s.mem.read s.pc.toNat, s.mem.read (s.pc.toNat + 1), s.mem.read (s.pc.toNat + 2)) ∧
    ∀ i, fetchDecode s = .ok i → ∀ k, i.mnemonic.width ≤ k → k ≤ 2 → ∀ v : Byte,
      fetchDecode (s.memWrite (BitVec.ofNat 8 (s.pc.toNat + k)) v) = .ok i

/-- The text of a well-formed instruction reads back as that instruction, and no other instruction has a text
(30_encoding.md section 4; the spec marks the syntax as its decision D18). -/
def Obligations.AssemblerTextReadsBack : Prop :=
  ∀ i : Instr,
    (i.wellFormed = true → ∃ cs, instrText i = some cs ∧ readStatement cs = some i) ∧
    (i.wellFormed = false → instrText i = none)

/-- A value's rendered line is its decimal digits, with no leading zero (0 itself is the one digit 0), and one line feed (10_state.md
section 5, 43_load_print_halt.md PRN; the spec's decision D11). -/
def Obligations.RenderedLineIsDecimal : Prop :=
  ∀ v : Byte,
    numberIn 10 (decimalText v) = some v.toNat ∧
    ((decimalText v).head? = some '0' → v = 0) ∧ decimalText 0 = ['0'] ∧
    renderLine v = decimalText v ++ ['\n']

/-! ## The instructions -/

/-- R130, whole: LDI's encoding and width, its effect and frame where a names a register, its fault where it does not. -/
def Obligations.LdiLoadsItsImmediate : Prop :=
  ∀ (a imm : Byte) (s : State),
    decode 0b10000010 a imm = .ok (.ldi a imm) ∧ Mnemonic.ldi.width = 3 ∧
    (∀ r : Fin 8, a.toNat = r.val → ∃ t, exec (.ldi a imm) s = .next t ∧
      t.reg r = imm ∧ (∀ q, q ≠ r → t.reg q = s.reg q) ∧ t.pc = s.pc + 3 ∧
      (∀ x, t.mem.read x = s.mem.read x) ∧ t.out = s.out ∧ t.state = s.state ∧ t.fault = s.fault ∧
      t.modelFault = s.modelFault ∧ (∀ k : Fin 7, t.written[k] = (decide (k.val = r.val) || s.written[k]))) ∧
    (8 ≤ a.toNat → exec (.ldi a imm) s = .next (s.takeFault .registerIndexOutOfRange a))

/-- PRN (43_load_print_halt.md PRN): its encoding and width, its effect and frame, its fault, which emits nothing, and the
model-only fault of the setting `UNWRITTEN_READ = fault` (the spec's decision D9), entered like any other fault
(60_exceptions.md section 2). That this entry keeps cause and info and names the fault in `modelFault` is the model's choice (log
entry 17). -/
def Obligations.PrnEmitsItsRegister : Prop :=
  ∀ (a : Byte) (s : State),
    (∀ b : Byte, decode 0b01000111 a b = .ok (.prn a)) ∧ Mnemonic.prn.width = 2 ∧
    (∀ r : Fin 8, a.toNat = r.val → ∃ t, exec (.prn a) s = .next t ∧
      t.out = s.out ++ [s.reg r] ∧ t.pc = s.pc + 2 ∧ (∀ q, t.reg q = s.reg q) ∧
      (∀ x, t.mem.read x = s.mem.read x) ∧ t.state = s.state ∧ t.fault = s.fault ∧ t.written = s.written ∧
      t.modelFault = s.modelFault) ∧
    (8 ≤ a.toNat → ∃ t, exec (.prn a) s = .next t ∧
      t = s.takeFault .registerIndexOutOfRange a ∧ t.out = s.out) ∧
    (∀ r : Fin 7, a.toNat = r.val → s.written[r] = false →
      execPrnUnder .fault a s = .next (s.takeUnwritten r))

/-- R120, R121, R123 (and ADD as R121 gives it): the ALU checks register_a, then register_b; reads both registers; writes
register_a the sum or the product modulo 256 and nothing else; any other operation name is UnsupportedALUOperation. -/
def Obligations.AluWritesOnlyRegisterA : Prop :=
  ∀ (ra rb : Byte) (s : State),
    (∀ r q : Fin 8, ra.toNat = r.val → rb.toNat = q.val →
      (∃ t, alu .draw .mul ra rb s = .ok t ∧
        (t.reg r).toNat = ((s.reg r).toNat * (s.reg q).toNat) % 256 ∧
        (∀ p, p ≠ r → t.reg p = s.reg p) ∧ t.mem = s.mem ∧ t.pc = s.pc ∧ t.out = s.out ∧
        t.state = s.state ∧ t.fault = s.fault ∧ t.modelFault = s.modelFault) ∧
      (∃ t, alu .draw .add ra rb s = .ok t ∧
        (t.reg r).toNat = ((s.reg r).toNat + (s.reg q).toNat) % 256 ∧
        (∀ p, p ≠ r → t.reg p = s.reg p) ∧ t.mem = s.mem ∧ t.pc = s.pc ∧ t.out = s.out ∧
        t.state = s.state ∧ t.fault = s.fault ∧ t.modelFault = s.modelFault) ∧
      (∀ name, alu .draw (.other name) ra rb s = .error (.fault .unsupportedALUOperation 0))) ∧
    (8 ≤ ra.toNat → ∀ op, alu .draw op ra rb s = .error (.fault .registerIndexOutOfRange ra)) ∧
    (ra.toNat < 8 → 8 ≤ rb.toNat → ∀ op, alu .draw op ra rb s = .error (.fault .registerIndexOutOfRange rb))

/-- MUL: product modulo 256 into register a, its frame, and its two index faults, operand_a's first (42_alu.md section 2; the order of
the faults is the spec's decision D8). -/
def Obligations.MulMultipliesIntoRegisterA : Prop :=
  ∀ (a b : Byte) (s : State),
    (∀ r q : Fin 8, a.toNat = r.val → b.toNat = q.val → ∃ t, exec (.mul a b) s = .next t ∧
      (t.reg r).toNat = ((s.reg r).toNat * (s.reg q).toNat) % 256 ∧
      (∀ p, p ≠ r → t.reg p = s.reg p) ∧ t.pc = s.pc + 3 ∧
      (∀ x, t.mem.read x = s.mem.read x) ∧ t.out = s.out ∧ t.state = s.state ∧ t.fault = s.fault ∧
      t.modelFault = s.modelFault ∧ (∀ k : Fin 7, t.written[k] = (decide (k.val = r.val) || s.written[k]))) ∧
    (8 ≤ a.toNat → exec (.mul a b) s = .next (s.takeFault .registerIndexOutOfRange a)) ∧
    (a.toNat < 8 → 8 ≤ b.toNat → exec (.mul a b) s = .next (s.takeFault .registerIndexOutOfRange b))

/-- PUSH: SP decremented without wrapping, the source register (read after the decrement: the spec's decision D10) at the new SP,
every other byte and register kept (41_stack.md PUSH; SP = 0 is the spec's decision D4). -/
def Obligations.PushStoresBelowTheStackPointer : Prop :=
  ∀ (a : Byte) (r : Fin 8) (s : State), a.toNat = r.val → s.sp ≠ 0 → s.mem.wf →
    ∃ t, exec (.push a) s = .next t ∧
      t.sp.toNat + 1 = s.sp.toNat ∧
      t.memRead t.sp = (if r = Config.spIndex then s.sp - 1 else s.reg r) ∧
      (∀ x, x ≠ (s.sp - 1).toNat → t.mem.read x = s.mem.read x) ∧
      (∀ q, q ≠ Config.spIndex → t.reg q = s.reg q) ∧ t.pc = s.pc + 2 ∧
      t.out = s.out ∧ t.state = s.state ∧ t.fault = s.fault ∧ t.written = s.written ∧ t.modelFault = s.modelFault

/-- Where PUSH traps: on a bad index first, then on SP = 0, recording that SP (41_stack.md PUSH; the spec's decisions D4, D8). -/
def Obligations.PushTrapsAtTheBottom : Prop :=
  ∀ (a : Byte) (s : State),
    (8 ≤ a.toNat → exec (.push a) s = .next (s.takeFault .registerIndexOutOfRange a)) ∧
    (a.toNat < 8 → s.sp = 0 → exec (.push a) s = .next (s.takeFault .stackBoundaryViolation 0))

/-- POP: the byte at SP into the register, then SP incremented without wrapping; POP R7 leaves the byte plus one
(41_stack.md POP; the spec's decisions D4, D10). -/
def Obligations.PopReadsThenIncrements : Prop :=
  ∀ (a : Byte) (r : Fin 8) (s : State), a.toNat = r.val →
    (r = Config.spIndex → s.memRead s.sp ≠ 255) → (r ≠ Config.spIndex → s.sp ≠ 255) →
    ∃ t, exec (.pop a) s = .next t ∧
      (r = Config.spIndex → t.sp.toNat = (s.memRead s.sp).toNat + 1) ∧
      (r ≠ Config.spIndex → t.reg r = s.memRead s.sp ∧ t.sp.toNat = s.sp.toNat + 1) ∧
      (∀ q, q ≠ r → q ≠ Config.spIndex → t.reg q = s.reg q) ∧ t.pc = s.pc + 2 ∧
      (∀ x, t.mem.read x = s.mem.read x) ∧ t.out = s.out ∧ t.state = s.state ∧ t.fault = s.fault ∧
      t.modelFault = s.modelFault ∧ (∀ k : Fin 7, t.written[k] = (decide (k.val = r.val) || s.written[k]))

/-- Where POP traps: on a bad index first, then where the incremented SP would be 256, recording SP
(41_stack.md POP; the spec's decisions D4, D8). -/
def Obligations.PopTrapsAtTheTop : Prop :=
  ∀ (a : Byte) (s : State),
    (8 ≤ a.toNat → exec (.pop a) s = .next (s.takeFault .registerIndexOutOfRange a)) ∧
    (a.toNat < 7 → s.sp = 255 → exec (.pop a) s = .next (s.takeFault .stackBoundaryViolation 255)) ∧
    (a.toNat = 7 → s.memRead s.sp = 255 → exec (.pop a) s = .next (s.takeFault .stackBoundaryViolation s.sp))

/-- HLT always completes: the engine is Halted and all else is kept, pc too (43_load_print_halt.md HLT; that pc is kept
is the spec's decision D5). -/
def Obligations.HltStopsTheEngine : Prop :=
  ∀ s : State, ∃ t, exec .hlt s = .next t ∧
    t.state = .halted ∧ t.runningFlag = false ∧ t.pc = s.pc ∧ (∀ q, t.reg q = s.reg q) ∧ (∀ x, t.mem.read x = s.mem.read x) ∧
    t.out = s.out ∧ t.fault = s.fault ∧ t.written = s.written ∧ t.modelFault = s.modelFault

/-- An operand byte names the register of its value and never a wrapped one; outside 0..7 every register operand of every
instruction raises RegisterIndexOutOfRange; the immediate of LDI never does (10_state.md section 1, 30_encoding.md section 2,
60_exceptions.md section 1). The byte recorded, and that MUL reports a before b and PUSH and POP the index before the stack, are the
spec's decisions D6 and D8 (log entry 10). -/
def Obligations.RegisterIndexIsNeverWrapped : Prop :=
  (∀ (a : Byte) (r : Fin 8), regOperand a = .ok r ↔ a.toNat = r.val) ∧
  (∀ (a : Byte) (s : State), 8 ≤ a.toNat →
    regOperand a = .error (.fault .registerIndexOutOfRange a) ∧
    (∀ imm, exec (.ldi a imm) s = .next (s.takeFault .registerIndexOutOfRange a)) ∧
    exec (.prn a) s = .next (s.takeFault .registerIndexOutOfRange a) ∧
    (∀ b, exec (.mul a b) s = .next (s.takeFault .registerIndexOutOfRange a)) ∧
    (∀ b : Byte, b.toNat < 8 → exec (.mul b a) s = .next (s.takeFault .registerIndexOutOfRange a)) ∧
    exec (.push a) s = .next (s.takeFault .registerIndexOutOfRange a) ∧
    exec (.pop a) s = .next (s.takeFault .registerIndexOutOfRange a)) ∧
  (∀ (a imm : Byte) (s : State), a.toNat < 8 →
    ∃ t, exec (.ldi a imm) s = .next t ∧ t.state = s.state ∧ t.fault = s.fault)

/-- Every instruction and every step answers a next state, under both settings of `UNWRITTEN_READ`: faults are taken, the model-only one
too, and no form is refused (40_engine.md section 1, 60_exceptions.md section 2; the spec's decision D9). The model's choices in it:
`exec` and `step` run with `draw` (log entry 2), a step of an ended engine, where the spec takes none, answers the same
state (log entry 4), and the model-only fault is entered as log entry 17 says. -/
def Obligations.EveryInstructionAnswersANextState : Prop :=
  (∀ (i : Instr) (s : State), ∃ t, exec i s = .next t) ∧ (∀ s : State, ∃ t, step s = .next t) ∧
  ∀ (u : UnwrittenRead) (s : State), (∀ i : Instr, ∃ t, execUnder u i s = .next t) ∧ ∃ t, stepUnder u s = .next t

/-! ## Faults -/

/-- Fault entry writes the code, the faulting pc and the info byte, sets Faulted, and keeps everything else; the five codes are
those of the table (60_exceptions.md sections 1 and 2; the spec's decisions D6 and D7). -/
def Obligations.FaultEntryWritesTheRecord : Prop :=
  (∀ (s : State) (k : FaultKind) (v : Byte),
    (s.takeFault k v).fault = { cause := k.code, pc := s.pc, info := v } ∧
    (s.takeFault k v).state = .faulted ∧
    (s.takeFault k v).pc = s.pc ∧ (s.takeFault k v).regs = s.regs ∧ (s.takeFault k v).mem = s.mem ∧
    (s.takeFault k v).out = s.out ∧ (s.takeFault k v).written = s.written ∧
    (s.takeFault k v).modelFault = s.modelFault) ∧
  FaultKind.unknownOpcode.code = 1 ∧ FaultKind.registerIndexOutOfRange.code = 2 ∧
  FaultKind.stackBoundaryViolation.code = 3 ∧ FaultKind.fetchOutOfRange.code = 4 ∧
  FaultKind.unsupportedALUOperation.code = 5

/-- UnwrittenRegisterRead is entered like any other fault: `fault_pc` is this pc, the engine is Faulted, and nothing of the
instruction is committed (60_exceptions.md section 2; the spec's decision D9). It has no hardware code and is recorded under its own
name: that the record's cause and info stay as they are, and that the name stands in `modelFault`, is the model's choice (log
entry 17). -/
def Obligations.UnwrittenFaultIsEnteredLikeAnyOther : Prop :=
  ∀ (s : State) (r : Fin 7),
    raiseFrom s (.unwritten r) = .next (s.takeUnwritten r) ∧
    (s.takeUnwritten r).state = .faulted ∧ (s.takeUnwritten r).fault.pc = s.pc ∧
    (s.takeUnwritten r).modelFault = some (.unwrittenRegisterRead r) ∧
    (s.takeUnwritten r).fault.cause = s.fault.cause ∧ (s.takeUnwritten r).fault.info = s.fault.info ∧
    (s.takeUnwritten r).pc = s.pc ∧ (s.takeUnwritten r).regs = s.regs ∧ (s.takeUnwritten r).mem = s.mem ∧
    (s.takeUnwritten r).out = s.out ∧ (s.takeUnwritten r).written = s.written

/-- A step of a Running engine that ends Faulted commits none of the instruction's own writes: the state differs from the one
before in `state` and the record alone, and the record names this pc and a cause of 1..4 (60_exceptions.md section 2; the
spec's decisions D6 and D7; cause 5 is unreachable from programs, D20). -/
def Obligations.FaultingStepCommitsNothing : Prop :=
  ∀ s t : State, s.state = .running → step s = .next t → t.state = .faulted →
    t = { s with fault := t.fault, state := .faulted } ∧ t.fault.pc = s.pc ∧
    t.fault.cause ∈ [(1 : BitVec 3), 2, 3, 4]

/-- A step at pc 254, 255, 256 or above faults before any read, whatever memory holds there (40_engine.md section 2; the spec's decision D3). -/
def Obligations.FetchPastTheEndFaults : Prop :=
  ∀ s : State, s.state = .running → 253 < s.pc.toNat →
    ∀ m : Memory, step { s with mem := m } = .next ({ s with mem := m }.takeFault .fetchOutOfRange 0)

/-- The model-only fault of the setting `UNWRITTEN_READ = fault` (60_exceptions.md section 2; the spec's decisions D8, D9): raised
by PRN, PUSH and MUL for an unwritten R0..R6, after every hardware fault, operand_a first; and a known register reads as under
`draw`. It is entered like any other fault; what its entry writes beyond state and `fault_pc` is the model's choice (log entry 17;
see `UnwrittenFaultIsEnteredLikeAnyOther`). -/
def Obligations.UnwrittenReadIsRaisedLast : Prop :=
  (∀ (a : Byte) (r : Fin 7) (s : State), a.toNat = r.val → s.written[r] = false →
    execPrnUnder .fault a s = .next (s.takeUnwritten r) ∧
    (s.sp ≠ 0 → execPushUnder .fault a s = .next (s.takeUnwritten r)) ∧
    (s.sp = 0 → execPushUnder .fault a s = .next (s.takeFault .stackBoundaryViolation 0)) ∧
    (∀ b : Byte, b.toNat < 8 → execMulUnder .fault a b s = .next (s.takeUnwritten r)) ∧
    (∀ b : Byte, 8 ≤ b.toNat → execMulUnder .fault a b s = .next (s.takeFault .registerIndexOutOfRange b)) ∧
    (∀ (b : Byte) (q : Fin 8), b.toNat = q.val → s.Known q →
      execMulUnder .fault b a s = .next (s.takeUnwritten r))) ∧
  (∀ (a : Byte) (r : Fin 8) (s : State), a.toNat = r.val → s.Known r →
    execPrnUnder .fault a s = exec (.prn a) s ∧ execPushUnder .fault a s = exec (.push a) s ∧
    ∀ (b : Byte) (q : Fin 8), b.toNat = q.val → s.Known q → execMulUnder .fault a b s = exec (.mul a b) s)

/-! ## The step -/

/-- R91 and R94: for each opcode of the table a step runs exactly the handler of its row, with the operand bytes that
follow it; for every other opcode it raises UnknownOpcode with the opcode byte, and nothing else happens. -/
def Obligations.DispatchSelectsTheRowsHandler : Prop :=
  ∀ s : State, s.state = .running → s.pc.toNat ≤ 253 →
    (s.mem.read s.pc.toNat = 0b00000001 → step s = execHlt s) ∧
    (s.mem.read s.pc.toNat = 0b10000010 →
      step s = execLdi (s.mem.read (s.pc.toNat + 1)) (s.mem.read (s.pc.toNat + 2)) s) ∧
    (s.mem.read s.pc.toNat = 0b01000111 → step s = execPrn (s.mem.read (s.pc.toNat + 1)) s) ∧
    (s.mem.read s.pc.toNat = 0b10100010 →
      step s = execMul (s.mem.read (s.pc.toNat + 1)) (s.mem.read (s.pc.toNat + 2)) s) ∧
    (s.mem.read s.pc.toNat = 0b01000101 → step s = execPush (s.mem.read (s.pc.toNat + 1)) s) ∧
    (s.mem.read s.pc.toNat = 0b01000110 → step s = execPop (s.mem.read (s.pc.toNat + 1)) s) ∧
    (s.mem.read s.pc.toNat ∉ [(0x01 : Byte), 0x45, 0x46, 0x47, 0x82, 0xA2] →
      step s = .next (s.takeFault .unknownOpcode (s.mem.read s.pc.toNat)))

/-- A step runs the decoded instruction: on this engine `exec` does all of it, the pc's advance too, and `step` adds nothing
(40_engine.md section 1). -/
def Obligations.StepRunsTheDecodedInstruction : Prop :=
  ∀ (s : State) (i : Instr), s.state = .running → s.pc.toNat ≤ 253 →
    decode (s.mem.read s.pc.toNat) (s.mem.read (s.pc.toNat + 1)) (s.mem.read (s.pc.toNat + 2)) = .ok i →
    step s = exec i s

/-- An instruction placed by `withFetchWord` is the one the next step runs (the model's own operation, log entry 13, over
20_memory.md section 4 and 40_engine.md section 1). -/
def Obligations.PlacedWordRunsNext : Prop :=
  ∀ (s : State) (nbits w : Nat) (i : Instr), s.state = .running → s.pc.toNat ≤ 253 → s.mem.wf →
    decodeTableWord nbits w = some i → step (s.withFetchWord nbits w) = exec i (s.withFetchWord nbits w)

/-- Halted and Faulted are terminal: nothing changes however many steps are asked for (40_engine.md section 4; the spec's decision
D17; that the step answers the same state, where the spec takes no step, is log entry 4). -/
def Obligations.EndedEngineDoesNothing : Prop :=
  ∀ s : State, s.Ended → ∀ n, Host.Core.run core n s = .next s

/-- The engine state changes only from Running, to Halted by a HLT at pc, or to Faulted (10_state.md section 3; D17). -/
def Obligations.EngineStateChangesOnlyTwoWays : Prop :=
  ∀ s t : State, step s = .next t → t.state ≠ s.state →
    s.state = .running ∧
    ((t.state = .halted ∧ s.pc.toNat ≤ 253 ∧ s.mem.read s.pc.toNat = 0x01) ∨ t.state = .faulted)

/-- A step that goes on moves pc past its instruction by the width, without wrapping; a step that ends the run leaves pc
(10_state.md section 2 and 40_engine.md section 4; pc after HLT is the spec's decision D5). -/
def Obligations.PcAdvancesByTheWidth : Prop :=
  ∀ s t : State, s.state = .running → step s = .next t →
    (t.state = .running → ∃ i, fetchDecode s = .ok i ∧ i ≠ .hlt ∧ t.pc.toNat = s.pc.toNat + i.mnemonic.width) ∧
    (t.state ≠ .running → t.pc = s.pc)

/-- The output stream only grows, by at most one value a step, and only where a PRN stands at pc; the value is the register
its operand names, and it is the step's one Out event (10_state.md section 5, 43_load_print_halt.md PRN). A step of an ended engine, which
the spec does not take, has none (log entry 4). -/
def Obligations.OutputGrowsOnlyByPrn : Prop :=
  ∀ s t : State, step s = .next t →
    (t.out = s.out ∧ outsOf s t = []) ∨
    (s.mem.read s.pc.toNat = 0x47 ∧
      ∃ r : Fin 8, (s.mem.read (s.pc.toNat + 1)).toNat = r.val ∧ t.out = s.out ++ [s.reg r] ∧ outsOf s t = [s.reg r])

/-- A byte PUSH has stored is what every later fetch of its address sees, the very next instruction's included, and the other
bytes are as before (20_memory.md section 4; derived there, and decision D25). -/
def Obligations.PushedByteIsFetched : Prop :=
  ∀ (s t : State) (r : Fin 8), s.state = .running → s.pc.toNat ≤ 253 → s.mem.wf → s.sp ≠ 0 →
    s.mem.read s.pc.toNat = 0x45 → (s.mem.read (s.pc.toNat + 1)).toNat = r.val → step s = .next t →
    ∀ p : PcVal, p.toNat ≤ 253 → ∀ f : Nat → Byte,
      (∀ x, f x = if x = (s.sp - 1).toNat then (if r = Config.spIndex then s.sp - 1 else s.reg r)
        else s.mem.read x) →
      fetch (t.setPc p) = .ok (f p.toNat, f (p.toNat + 1), f (p.toNat + 2))

/-- LDI followed at once by PRN of the same register emits the loaded value (43_load_print_halt.md PRN, corner cases; derived there). -/
def Obligations.LoadThenPrintReproducesTheValue : Prop :=
  ∀ (s : State) (r : Fin 8), s.state = .running → s.pc.toNat ≤ 250 →
    s.mem.read s.pc.toNat = 0x82 → (s.mem.read (s.pc.toNat + 1)).toNat = r.val →
    s.mem.read (s.pc.toNat + 3) = 0x47 → s.mem.read (s.pc.toNat + 4) = s.mem.read (s.pc.toNat + 1) →
    ∃ t, Host.Core.run core 2 s = .next t ∧ t.out = s.out ++ [s.mem.read (s.pc.toNat + 2)] ∧
      t.pc.toNat = s.pc.toNat + 5 ∧ t.state = .running

/-! ## What instructions do not touch -/

/-- The data accesses are those of the access table: only PUSH writes memory, and only at the decremented SP; HLT, LDI, PRN and
MUL do not read it; nor does PUSH, whose result is the same but for the memory, and whose stored byte is the same, from any memory;
POP reads the byte at SP alone (20_memory.md section 1). -/
def Obligations.OnlyTheStackTouchesMemory : Prop :=
  (∀ (i : Instr) (s t : State), i.mnemonic ≠ .push → exec i s = .next t → t.mem = s.mem) ∧
  (∀ (i : Instr) (s t : State) (m : Memory), i.mnemonic ≠ .push → i.mnemonic ≠ .pop →
    exec i s = .next t → exec i { s with mem := m } = .next { t with mem := m }) ∧
  (∀ (a : Byte) (s t : State) (m : Memory), m.read s.sp.toNat = s.mem.read s.sp.toNat →
    exec (.pop a) s = .next t → exec (.pop a) { s with mem := m } = .next { t with mem := m }) ∧
  (∀ (a : Byte) (s t : State), s.mem.wf → exec (.push a) s = .next t →
    ∀ x, x ≠ (s.sp - 1).toNat → t.mem.read x = s.mem.read x) ∧
  (∀ (a : Byte) (s t : State) (m : Memory), exec (.push a) s = .next t →
    ∃ m', exec (.push a) { s with mem := m } = .next { t with mem := m' } ∧
      (a.toNat < 8 → s.sp ≠ 0 → s.mem.wf → m.wf →
        m'.read (s.sp - 1).toNat = t.mem.read (s.sp - 1).toNat))

/-- No instruction reads or writes the fault record: replacing it changes nothing but itself, and it changes only by fault
entry (10_state.md section 3, 40_engine.md section 3; the record is the spec's decision D6). -/
def Obligations.FaultRecordIsNeverRead : Prop :=
  ∀ (i : Instr) (s : State) (f : FaultRecord),
    (∃ t, exec i s = .next t ∧ t.fault = s.fault ∧ exec i { s with fault := f } = .next { t with fault := f }) ∨
    (∃ k v, exec i s = .next (s.takeFault k v) ∧ exec i { s with fault := f } = .next (s.takeFault k v))

/-- What a model keeps beside the hardware's state, the set `written` and the name `modelFault`, is not hardware state: replacing it
changes no other part of any result (10_state.md section 4). It rests on the setting `draw` (log entry 2); the field `modelFault` is
log entry 17. -/
def Obligations.BookkeepingChangesNoResult : Prop :=
  ∀ (i : Instr) (s t : State) (w : Vector Bool 7) (f : Option ModelFault), exec i s = .next t →
    ∃ t', exec i { s with written := w, modelFault := f } = .next t' ∧ t'.modelFault = f ∧
      { t' with written := t.written, modelFault := t.modelFault } = t

/-- Why the setting `fault` is worth having: a step of the checking machine takes the model-only fault of a register that nothing has
written, or else the machine that drew any other values for the unwritten registers takes the same step, so no result depends on an
unspecified reset value (10_state.md section 1, 40_engine.md section 5, 60_exceptions.md section 2; the parameter is the spec's
decision D9). Steps of ended engines, which the spec does not take, are log entry 4; the model-only fault's entry is log
entry 17. -/
def Obligations.CheckedStepsIgnoreResetValues : Prop :=
  ∀ s s' t : State, SameButUnwritten s s' → stepUnder .fault s = .next t →
    (∃ r : Fin 7, s.written[r] = false ∧ t = s.takeUnwritten r) ∨
    ∃ t', step s' = .next t' ∧ SameButUnwritten t t'

/-! ## The stack -/

/-- PUSH a then POP a restores the register and SP, for every register, R7 too; PUSH a then POP b, b not R7, copies
(41_stack.md, Stack laws; derived there). -/
def Obligations.PushThenPopRestores : Prop :=
  ∀ (a b : Byte) (r q : Fin 8) (s : State), a.toNat = r.val → b.toNat = q.val → s.sp ≠ 0 → s.mem.wf →
    (∃ t, execAll [.push a, .pop a] s = .next t ∧ (∀ p, t.reg p = s.reg p)) ∧
    (r ≠ Config.spIndex → q ≠ Config.spIndex → ∃ t, execAll [.push a, .pop b] s = .next t ∧
      t.reg q = s.reg r ∧ (∀ p, p ≠ q → t.reg p = s.reg p))

/-- Registers pushed one after another and popped in reverse order all come back, SP too, whatever list of registers it is and
however often R7 is in it (PUSH R7 and POP R7 are the spec's decision D10); bytes outside the stack slots used are kept (41_stack.md,
Stack laws). -/
def Obligations.ReversedPopsRestoreEveryRegister : Prop :=
  ∀ (as : List Byte) (s : State), (∀ a ∈ as, a.toNat < 8) → as.length ≤ s.sp.toNat → s.mem.wf →
    ∃ t, execAll (as.map Instr.push ++ as.reverse.map Instr.pop) s = .next t ∧
      (∀ q, t.reg q = s.reg q) ∧
      (∀ x, x + as.length < s.sp.toNat ∨ s.sp.toNat ≤ x → t.mem.read x = s.mem.read x)

/-- After N PUSHes SP is the initial value minus N, while that stays in range; one more PUSH at SP = 0 faults
(41_stack.md PUSH, corner cases; the spec's decision D4). -/
def Obligations.StackPointerCountsPushes : Prop :=
  ∀ (as : List Byte) (s : State), (∀ a ∈ as, a.toNat < 8) → as.length ≤ s.sp.toNat →
    ∃ t, execAll (as.map Instr.push) s = .next t ∧ t.sp.toNat + as.length = s.sp.toNat ∧ t.state = s.state ∧
      (as.length = s.sp.toNat → ∀ a : Byte, a.toNat < 8 →
        exec (.push a) t = .next (t.takeFault .stackBoundaryViolation 0))

/-! ## Invariants and whole runs -/

/-- Every step, from every state that meets the invariant, under either setting of `UNWRITTEN_READ`, answers a state that meets it (see
`State.Inv`: 10_state.md, 20_memory.md, 60_exceptions.md), and the machine's own step takes no model-only fault. What the
invariant says of a model-only fault rests on log entry 17, and a step of an ended engine is log entry 4. -/
def Obligations.StepKeepsTheInvariant : Prop :=
  ∀ s t : State, s.Inv →
    (step s = .next t → t.Inv ∧ t.modelFault = s.modelFault) ∧
    ∀ u : UnwrittenRead, stepUnder u s = .next t → t.Inv

/-- The invariant holds after Reset, whatever R0..R6 hold. -/
def Obligations.ResetMeetsTheInvariant : Prop :=
  ∀ d : Vector Byte 7, (State.resetDrawing d).Inv

/-- Every booted block meets the invariant, whatever image was loaded (10_state.md section 5; the spec's decision D12). -/
def Obligations.BootedBlockMeetsTheInvariant : Prop :=
  ∀ (d : Vector Byte 7) (image : List Byte) (b : Block), boot d image = some b → b.engine.Inv

/-- Every run ends: from ANY state, 128 steps leave the engine Halted or Faulted (40_engine.md section 5; derived there). That a run of
exactly 128 steps exists when the engine ends sooner is the model's choice: a step of an ended engine answers the same state (log
entry 4). -/
def Obligations.EveryRunEndsWithin128Steps : Prop :=
  ∀ s : State, ∃ t, Host.Core.run core 128 s = .next t ∧ t.Ended

/-- A run is safe for any number of steps exactly if it halts: HLT is the only normal end, and a fault is never left (40_engine.md
section 5; the spec's decision D23). Runs go on past the end of the spec's run, where a step answers the same state: the model's
choice (log entry 4). -/
def Obligations.SafeRunsAreThoseThatHalt : Prop :=
  ∀ s : State, (∀ n, SafeFor n s) ↔ ∃ t, Host.Core.run core 128 s = .next t ∧ t.state = .halted

/-! ## The boundary -/

/-- Boot places the image at address 0 and on, leaves 0 elsewhere and all else as Reset left it; an image of more than 256
bytes is refused (10_state.md section 5, 70_reset_and_hazards.md section 1; the spec's decisions D12 and D22). -/
def Obligations.BootPlacesTheImage : Prop :=
  ∀ (d : Vector Byte 7) (image : List Byte),
    (image.length ≤ 256 → ∃ b, boot d image = some b ∧ b.phase = .started ∧
      (∀ x, b.engine.mem.read x = image.getD x 0) ∧
      { b.engine with mem := [] } = State.resetDrawing d) ∧
    (256 < image.length → boot d image = none)

/-- Boot is the three host actions in this order: Reset, the Loads of the image's bytes, Start (70_reset_and_hazards.md section 1; D22). -/
def Obligations.BootIsResetLoadStart : Prop :=
  ∀ (b : Block) (d : Vector Byte 7) (image : List Byte), image.length ≤ 256 →
    b.applyAll (.reset d :: (loadsFrom 0 image ++ [.start])) = boot d image

/-- The boundary protocol (10_state.md section 5; the spec's decisions D1 and D12): Reset at any time; Load and Start only before
Start; Step only after it and while Running, and then it is the engine's step. -/
def Obligations.BoundaryAllowsOnlyTheProtocol : Prop :=
  ∀ b : Block,
    (∀ d, b.apply (.reset d) = some { phase := .awaitingStart, engine := State.resetDrawing d }) ∧
    (b.phase = .started → (∀ x v, b.apply (.load x v) = none) ∧ b.apply .start = none) ∧
    (b.phase = .awaitingStart → b.apply .step = none ∧
      (∀ x v, b.apply (.load x v) = some { b with engine := b.engine.memWrite x v }) ∧
      b.apply .start = some { b with phase := .started }) ∧
    (b.engine.Ended → b.apply .step = none) ∧
    (b.phase = .started → b.engine.state = .running →
      ∃ t, step b.engine = .next t ∧ b.apply .step = some { b with engine := t })

/-- Debug reports pc, the bytes at pc, pc+1, pc+2, absent where the address is 256 or more, and the registers; Status reports the
state and the record (10_state.md section 5; the spec's decision D19). -/
def Obligations.ObservationsReportTheState : Prop :=
  ∀ b : Block,
    b.observe.pc = b.engine.pc ∧ (∀ q : Fin 8, b.observe.regs[q] = b.engine.reg q) ∧
    (b.engine.pc.toNat ≤ 255 → b.observe.byte0 = some (b.engine.mem.read b.engine.pc.toNat)) ∧
    (b.engine.pc.toNat ≤ 254 → b.observe.byte1 = some (b.engine.mem.read (b.engine.pc.toNat + 1))) ∧
    (b.engine.pc.toNat ≤ 253 → b.observe.byte2 = some (b.engine.mem.read (b.engine.pc.toNat + 2))) ∧
    (255 < b.engine.pc.toNat → b.observe.byte0 = none) ∧
    (254 < b.engine.pc.toNat → b.observe.byte1 = none) ∧
    (253 < b.engine.pc.toNat → b.observe.byte2 = none) ∧
    b.status = { state := b.engine.state, fault := b.engine.fault }
end

