-- ==== Sys2Proof/Laws/Decode.lean ====
section
/-! SUPPORT. The Dispatch Table and the columns of R75 agree, and an opcode's row is found by it. -/

namespace Sys2Proof

/-- Each mnemonic's opcode finds a row of that mnemonic, and the row's arity and format are the mnemonic's. -/
theorem lookupOpcode_opcode (m : Mnemonic) :
    ∃ f, lookupOpcode m.opcode = some { opcode := m.opcode, mnemonic := m, format := f, arity := m.arity } := by
  cases m
  exacts [⟨.f0, rfl⟩, ⟨.f2ri, rfl⟩, ⟨.f1r, rfl⟩, ⟨.f2rr, rfl⟩, ⟨.f1r, rfl⟩, ⟨.f1r, rfl⟩]

/-- A row that is found has the opcode looked up, and its mnemonic's opcode and arity. -/
theorem lookupOpcode_some {op : Byte} {row : DispatchRow} (h : lookupOpcode op = some row) :
    op = row.mnemonic.opcode ∧ row.arity = row.mnemonic.arity := by
  have hop : row.opcode = op := by simpa using List.find?_some h
  have hmem : row ∈ dispatchTable := List.mem_of_find?_eq_some h
  have all : ∀ r ∈ dispatchTable, r.opcode = r.mnemonic.opcode ∧ r.arity = r.mnemonic.arity := by decide
  exact ⟨hop ▸ (all row hmem).1, (all row hmem).2⟩

/-- Decoding an opcode of the table makes that mnemonic's instruction of the operand bytes. -/
theorem decode_opcode (m : Mnemonic) (b1 b2 : Byte) : decode m.opcode b1 b2 = .ok (m.withOperands b1 b2) := by
  cases m <;> rfl

/-- What is decoded came from its mnemonic's opcode byte. -/
theorem decode_ok {op b1 b2 : Byte} {i : Instr} (h : decode op b1 b2 = .ok i) :
    op = i.mnemonic.opcode ∧ i = i.mnemonic.withOperands b1 b2 := by
  unfold decode at h
  split at h
  · cases h
  · rename_i row hrow
    simp only [Except.ok.injEq] at h
    subst h
    have e : (row.mnemonic.withOperands b1 b2).mnemonic = row.mnemonic := by cases row.mnemonic <;> rfl
    rw [e]
    exact ⟨(lookupOpcode_some hrow).1, rfl⟩

@[simp] theorem operandBytes_length (i : Instr) : i.operandBytes.length = i.mnemonic.arity := by
  cases i <;> rfl

/-- R76, an observation and no decoding rule: bits 7..6 of each opcode are its arity, and bit 5 is set in MUL alone. -/
theorem opcode_bits (m : Mnemonic) :
    (m.opcode.extractLsb' 6 2).toNat = m.arity ∧ (m.opcode.getLsbD 5 = true ↔ m = .mul) := by
  cases m <;> decide

end Sys2Proof
end

