-- ==== Sys2Proof/Laws/Memory.lean ====
section
/-! SUPPORT. The laws of memory: a read after a write, and that a write keeps the canonical form, in which equal contents are
equal lists. -/

namespace Sys2Proof.Machine

@[simp] theorem Memory.read_nil (a : Nat) : Memory.read [] a = Config.memReset := rfl

/-- A cell below every listed address holds the reset value. -/
theorem Memory.read_below {m : Memory} {a : Nat} (h : ∀ c ∈ m, a < c.1) : m.read a = Config.memReset := by
  induction m with
  | nil => rfl
  | cons c m ih =>
    obtain ⟨b, w⟩ := c
    have hb : a < b := h (b, w) (by simp)
    simp only [Memory.read, if_neg (Nat.ne_of_lt hb)]
    exact ih fun c hc => h c (by simp [hc])

/-- A read after a write, in a memory whose addresses rise. -/
theorem Memory.read_write {m : Memory} (h : m.Pairwise (fun c c' => c.1 < c'.1)) (a b : Nat) (v : Byte) :
    (m.write a v).read b = if b = a then v else m.read b := by
  induction m with
  | nil =>
    by_cases hv : v = Config.memReset <;> by_cases hb : b = a <;> simp [Memory.write, Memory.read, hv, hb]
  | cons c m ih =>
    obtain ⟨x, w⟩ := c
    obtain ⟨hx, hm⟩ := List.pairwise_cons.mp h
    have below : ∀ y, y ≤ x → Memory.read m y = Config.memReset := fun y hy =>
      Memory.read_below fun c hc => Nat.lt_of_le_of_lt hy (hx c hc)
    rcases Nat.lt_trichotomy a x with hax | hax | hax
    · have hnx : ¬ a = x := Nat.ne_of_lt hax
      have ha := below a (Nat.le_of_lt hax)
      by_cases hv : v = Config.memReset <;> by_cases hb : b = a <;>
        simp [Memory.write, Memory.read, hax, hv, hb, hnx, ha]
    · subst hax
      have ha := below a (Nat.le_refl a)
      by_cases hv : v = Config.memReset <;> by_cases hb : b = a <;>
        simp [Memory.write, Memory.read, hv, hb, ha]
    · have hnl : ¬ a < x := Nat.lt_asymm hax
      have hne : ¬ a = x := (Nat.ne_of_lt hax).symm
      by_cases hbx : b = x
      · have hb : ¬ b = a := fun e => hne (e ▸ hbx)
        simp [Memory.write, Memory.read, hnl, hne, hbx]
        intro e; exact absurd e.symm hne
      · simp [Memory.write, Memory.read, hnl, hne, hbx, ih hm]

/-- The addresses a write lists are the old ones and the one written. -/
theorem Memory.mem_write {m : Memory} {a : Nat} {v : Byte} {c : Host.Cell} (h : c ∈ m.write a v) :
    c ∈ m ∨ (c = (a, v) ∧ v ≠ Config.memReset) := by
  induction m with
  | nil =>
    by_cases hv : v = Config.memReset <;> simp_all [Memory.write]
  | cons d m ih =>
    obtain ⟨x, w⟩ := d
    simp only [Memory.write] at h
    split at h
    · split at h <;> simp_all
      tauto
    · split at h
      · split at h <;> simp_all
        tauto
      · rcases List.mem_cons.mp h with h | h
        · exact .inl (by simp [h])
        · rcases ih h with h | h
          · exact .inl (by simp [h])
          · exact .inr h

/-- A write keeps the canonical form. -/
theorem Memory.wf_write {m : Memory} (h : m.wf) {a : Nat} (ha : a < Config.memSize) (v : Byte) :
    (m.write a v).wf := by
  refine ⟨?_, fun c hc => ?_⟩
  · obtain ⟨hp, -⟩ := h
    induction m with
    | nil => by_cases hv : v = Config.memReset <;> simp [Memory.write, hv]
    | cons d m ih =>
      obtain ⟨x, w⟩ := d
      obtain ⟨hx, hm⟩ := List.pairwise_cons.mp hp
      simp only [Memory.write]
      split
      · rename_i hax
        split
        · exact hp
        · refine List.pairwise_cons.mpr ⟨fun c hc => ?_, hp⟩
          rcases List.mem_cons.mp hc with rfl | hc
          · exact hax
          · exact Nat.lt_trans hax (hx c hc)
      · rename_i hax
        split
        · rename_i he
          subst he
          split
          · exact hm
          · exact List.pairwise_cons.mpr ⟨hx, hm⟩
        · rename_i hne
          refine List.pairwise_cons.mpr ⟨fun c hc => ?_, ih hm⟩
          rcases Memory.mem_write hc with hc | ⟨rfl, -⟩
          · exact hx c hc
          · exact Nat.lt_of_le_of_ne (Nat.le_of_not_lt hax) (Ne.symm hne)
  · rcases Memory.mem_write hc with hc | ⟨rfl, hv⟩
    · exact h.2 c hc
    · exact ⟨ha, hv⟩

/-- A write of a data address keeps the canonical form: the address is inside 0..255 by its type. -/
theorem Memory.wf_write_addr {m : Memory} (h : m.wf) (a : BitVec 8) (v : Byte) : (m.write a.toNat v).wf :=
  Memory.wf_write h (by simpa [Config.memSize] using a.isLt) v

/-- The head of a canonical memory is found by reading, and what follows it lies above. -/
theorem Memory.wf_tail {c : Host.Cell} {m : Memory} (h : Memory.wf (c :: m)) : Memory.wf m :=
  ⟨(List.pairwise_cons.mp h.1).2, fun d hd => h.2 d (by simp [hd])⟩

/-- Canonical memories with the same contents are the same list. -/
theorem Memory.ext_of_wf {m n : Memory} (hm : m.wf) (hn : n.wf) (h : ∀ a, m.read a = n.read a) : m = n := by
  induction m generalizing n with
  | nil =>
    cases n with
    | nil => rfl
    | cons d n =>
      have := h d.1
      simp only [Memory.read, if_true] at this
      exact absurd this.symm (hn.2 d (by simp)).2
  | cons c m ih =>
    cases n with
    | nil =>
      have := h c.1
      simp only [Memory.read, if_true] at this
      exact absurd this (hm.2 c (by simp)).2
    | cons d n =>
      obtain ⟨a, v⟩ := c
      obtain ⟨b, w⟩ := d
      have hma := (List.pairwise_cons.mp hm.1).1
      have hnb := (List.pairwise_cons.mp hn.1).1
      have hva : v ≠ Config.memReset := (hm.2 (a, v) (by simp)).2
      have hwb : w ≠ Config.memReset := (hn.2 (b, w) (by simp)).2
      have hab : a = b := by
        rcases Nat.lt_trichotomy a b with hlt | he | hlt
        · have e := h a
          rw [Memory.read_below (m := (b, w) :: n) (a := a) (by
            intro c hc
            rcases List.mem_cons.mp hc with rfl | hc
            · exact hlt
            · exact Nat.lt_trans hlt (hnb c hc))] at e
          simp only [Memory.read, if_true] at e
          exact absurd e hva
        · exact he
        · have e := h b
          rw [Memory.read_below (m := (a, v) :: m) (a := b) (by
            intro c hc
            rcases List.mem_cons.mp hc with rfl | hc
            · exact hlt
            · exact Nat.lt_trans hlt (hma c hc))] at e
          simp only [Memory.read, if_true] at e
          exact absurd e.symm hwb
      subst hab
      have hvw : v = w := by simpa [Memory.read] using h a
      subst hvw
      congr 1
      refine ih (Memory.wf_tail hm) (Memory.wf_tail hn) fun x => ?_
      by_cases hx : x = a
      · subst hx
        rw [Memory.read_below fun c hc => hma c hc, Memory.read_below fun c hc => hnb c hc]
      · simpa [Memory.read, hx] using h x

end Sys2Proof.Machine
end

