-- ==== Sys2Proof/Laws/State.lean ====
section
/-! SUPPORT. One lemma per field and update of State, each true by unfolding, so that no later proof unfolds a record update. -/

namespace Sys2Proof.Machine

variable (s : State) (r q : Fin 8) (v : Byte) (a : Addr) (p : PcVal) (k : FaultKind)

@[simp] theorem State.setReg_mem : (s.setReg r v).mem = s.mem := rfl
@[simp] theorem State.setReg_pc : (s.setReg r v).pc = s.pc := rfl
@[simp] theorem State.setReg_state : (s.setReg r v).state = s.state := rfl
@[simp] theorem State.setReg_fault : (s.setReg r v).fault = s.fault := rfl
@[simp] theorem State.setReg_modelFault : (s.setReg r v).modelFault = s.modelFault := rfl
@[simp] theorem State.setReg_out : (s.setReg r v).out = s.out := rfl

@[simp] theorem State.setSp_mem : (s.setSp v).mem = s.mem := rfl
@[simp] theorem State.setSp_pc : (s.setSp v).pc = s.pc := rfl
@[simp] theorem State.setSp_state : (s.setSp v).state = s.state := rfl
@[simp] theorem State.setSp_fault : (s.setSp v).fault = s.fault := rfl
@[simp] theorem State.setSp_modelFault : (s.setSp v).modelFault = s.modelFault := rfl
@[simp] theorem State.setSp_out : (s.setSp v).out = s.out := rfl
@[simp] theorem State.setSp_written : (s.setSp v).written = s.written := rfl

@[simp] theorem State.memWrite_mem : (s.memWrite a v).mem = s.mem.write a.toNat v := rfl
@[simp] theorem State.memWrite_regs : (s.memWrite a v).regs = s.regs := rfl
@[simp] theorem State.memWrite_pc : (s.memWrite a v).pc = s.pc := rfl
@[simp] theorem State.memWrite_state : (s.memWrite a v).state = s.state := rfl
@[simp] theorem State.memWrite_fault : (s.memWrite a v).fault = s.fault := rfl
@[simp] theorem State.memWrite_modelFault : (s.memWrite a v).modelFault = s.modelFault := rfl
@[simp] theorem State.memWrite_out : (s.memWrite a v).out = s.out := rfl
@[simp] theorem State.memWrite_written : (s.memWrite a v).written = s.written := rfl
@[simp] theorem State.memWrite_reg : (s.memWrite a v).reg r = s.reg r := rfl
@[simp] theorem State.memWrite_sp : (s.memWrite a v).sp = s.sp := rfl

@[simp] theorem State.emit_mem : (s.emit v).mem = s.mem := rfl
@[simp] theorem State.emit_regs : (s.emit v).regs = s.regs := rfl
@[simp] theorem State.emit_pc : (s.emit v).pc = s.pc := rfl
@[simp] theorem State.emit_state : (s.emit v).state = s.state := rfl
@[simp] theorem State.emit_fault : (s.emit v).fault = s.fault := rfl
@[simp] theorem State.emit_modelFault : (s.emit v).modelFault = s.modelFault := rfl
@[simp] theorem State.emit_out : (s.emit v).out = s.out ++ [v] := rfl
@[simp] theorem State.emit_written : (s.emit v).written = s.written := rfl
@[simp] theorem State.emit_reg : (s.emit v).reg r = s.reg r := rfl
@[simp] theorem State.emit_sp : (s.emit v).sp = s.sp := rfl

@[simp] theorem State.setPc_mem : (s.setPc p).mem = s.mem := rfl
@[simp] theorem State.setPc_regs : (s.setPc p).regs = s.regs := rfl
@[simp] theorem State.setPc_pc : (s.setPc p).pc = p := rfl
@[simp] theorem State.setPc_state : (s.setPc p).state = s.state := rfl
@[simp] theorem State.setPc_fault : (s.setPc p).fault = s.fault := rfl
@[simp] theorem State.setPc_modelFault : (s.setPc p).modelFault = s.modelFault := rfl
@[simp] theorem State.setPc_out : (s.setPc p).out = s.out := rfl
@[simp] theorem State.setPc_written : (s.setPc p).written = s.written := rfl
@[simp] theorem State.setPc_reg : (s.setPc p).reg r = s.reg r := rfl
@[simp] theorem State.setPc_sp : (s.setPc p).sp = s.sp := rfl
@[simp] theorem State.setPc_memRead : (s.setPc p).memRead a = s.memRead a := rfl

@[simp] theorem State.takeFault_mem : (s.takeFault k v).mem = s.mem := rfl
@[simp] theorem State.takeFault_regs : (s.takeFault k v).regs = s.regs := rfl
@[simp] theorem State.takeFault_pc : (s.takeFault k v).pc = s.pc := rfl
@[simp] theorem State.takeFault_state : (s.takeFault k v).state = .faulted := rfl
@[simp] theorem State.takeFault_fault : (s.takeFault k v).fault = { cause := k.code, pc := s.pc, info := v } := rfl
@[simp] theorem State.takeFault_modelFault : (s.takeFault k v).modelFault = s.modelFault := rfl
@[simp] theorem State.takeFault_out : (s.takeFault k v).out = s.out := rfl
@[simp] theorem State.takeFault_written : (s.takeFault k v).written = s.written := rfl
@[simp] theorem State.takeFault_reg : (s.takeFault k v).reg r = s.reg r := rfl
@[simp] theorem State.takeFault_sp : (s.takeFault k v).sp = s.sp := rfl

@[simp] theorem State.takeUnwritten_mem (u : Fin 7) : (s.takeUnwritten u).mem = s.mem := rfl
@[simp] theorem State.takeUnwritten_regs (u : Fin 7) : (s.takeUnwritten u).regs = s.regs := rfl
@[simp] theorem State.takeUnwritten_pc (u : Fin 7) : (s.takeUnwritten u).pc = s.pc := rfl
@[simp] theorem State.takeUnwritten_state (u : Fin 7) : (s.takeUnwritten u).state = .faulted := rfl
@[simp] theorem State.takeUnwritten_fault (u : Fin 7) :
    (s.takeUnwritten u).fault = { s.fault with pc := s.pc } := rfl
@[simp] theorem State.takeUnwritten_out (u : Fin 7) : (s.takeUnwritten u).out = s.out := rfl
@[simp] theorem State.takeUnwritten_written (u : Fin 7) : (s.takeUnwritten u).written = s.written := rfl
@[simp] theorem State.takeUnwritten_modelFault (u : Fin 7) :
    (s.takeUnwritten u).modelFault = some (.unwrittenRegisterRead u) := rfl
@[simp] theorem State.takeUnwritten_reg (u : Fin 7) : (s.takeUnwritten u).reg r = s.reg r := rfl
@[simp] theorem State.takeUnwritten_sp (u : Fin 7) : (s.takeUnwritten u).sp = s.sp := rfl

/-- Reading a register after a register write. -/
theorem State.reg_setReg : (s.setReg r v).reg q = if r = q then v else s.reg q := by
  simp only [State.reg, State.setReg, Fin.getElem_fin, Vector.getElem_set, Fin.ext_iff]

@[simp] theorem State.reg_setReg_same : (s.setReg r v).reg r = v := by
  simp [State.reg_setReg]

theorem State.reg_setReg_other (h : r ≠ q) : (s.setReg r v).reg q = s.reg q := by
  simp [State.reg_setReg, h]

@[simp] theorem State.sp_setSp : (s.setSp v).sp = v := s.reg_setReg_same Config.spIndex v

theorem State.reg_setSp : (s.setSp v).reg q = if Config.spIndex = q then v else s.reg q :=
  s.reg_setReg Config.spIndex q v

@[simp] theorem State.setReg_memRead : (s.setReg r v).memRead a = s.memRead a := rfl
@[simp] theorem State.setSp_memRead : (s.setSp v).memRead a = s.memRead a := rfl

end Sys2Proof.Machine
end

