-- ==== Sys2Proof/Laws/Ops.lean ====
section
/-! SUPPORT. What each shared operation can do, said once: sequencing of a handler, register operands, reading a register, the end
of a step. -/

namespace Sys2Proof.Machine

/-- A statement of a handler that gives a value hands it to the rest. -/
@[simp] theorem handler_ok_bind {ε α β : Type} (x : α) (f : α → Except ε β) :
    ((Except.ok x : Except ε α) >>= f) = f x := rfl

/-- A statement of a handler that raises ends it. -/
@[simp] theorem handler_error_bind {ε α β : Type} (e : ε) (f : α → Except ε β) :
    ((Except.error e : Except ε α) >>= f) = .error e := rfl

/-- A handler that gives a value did so in each of its statements. -/
theorem handler_bind_eq_ok {ε α β : Type} {x : Except ε α} {f : α → Except ε β} {y : β}
    (h : (x >>= f) = .ok y) : ∃ a, x = .ok a ∧ f a = .ok y := by
  cases x with
  | error e => cases h
  | ok a => exact ⟨a, rfl, h⟩

/-- A handler that raises did so in its first statement or in the rest. -/
theorem handler_bind_eq_error {ε α β : Type} {x : Except ε α} {f : α → Except ε β} {e : ε}
    (h : (x >>= f) = .error e) : x = .error e ∨ ∃ a, x = .ok a ∧ f a = .error e := by
  cases x with
  | error d =>
    simp only [handler_error_bind, Except.error.injEq] at h
    exact .inl (by rw [h])
  | ok a => exact .inr ⟨a, rfl, h⟩

/-- The operand byte of a register names that register. -/
@[simp] theorem regOperand_ofNat (r : Fin 8) : regOperand (BitVec.ofNat 8 r.val) = .ok r := by
  revert r; decide

/-- A register operand's only answers. -/
theorem regOperand_cases (a : Byte) :
    (∃ r : Fin 8, a.toNat = r.val ∧ regOperand a = .ok r) ∨
    (8 ≤ a.toNat ∧ regOperand a = .error (.fault .registerIndexOutOfRange a)) := by
  unfold regOperand
  split
  · rename_i h
    exact .inl ⟨⟨a.toNat, h⟩, rfl, rfl⟩
  · rename_i h
    exact .inr ⟨Nat.le_of_not_lt h, rfl⟩

theorem regOperand_of_eq {a : Byte} {r : Fin 8} (h : a.toNat = r.val) : regOperand a = .ok r := by
  have hr := r.isLt
  simp only [regOperand, h, hr, dif_pos, Fin.eta]

/-- Under the setting the machine runs with, a register read always gives the register's value (log entry 2). -/
@[simp] theorem State.readReg_draw (s : State) (r : Fin 8) : s.readReg .draw r = .ok (s.reg r) := rfl

theorem Config.memSize_eq : Config.memSize = 256 := rfl
theorem Config.loadBase_eq : Config.loadBase = 0 := rfl
theorem Config.spIndex_val : Config.spIndex.val = 7 := rfl
theorem Config.memReset_eq : Config.memReset = 0 := rfl
@[simp] theorem Config.unwrittenRead_eq : Config.unwrittenRead = .draw := rfl

/-- A register read under either setting gives the register's value, or the model-only fault of an unwritten R0..R6. -/
theorem State.readReg_cases (u : UnwrittenRead) (s : State) (r : Fin 8) :
    s.readReg u r = .ok (s.reg r) ∨
    (u = .fault ∧ ∃ q : Fin 7, r.val = q.val ∧ s.written[q] = false ∧ s.readReg u r = .error (.unwritten q)) := by
  cases u with
  | draw => exact .inl rfl
  | fault =>
    by_cases h : r.val < 7
    · by_cases hw : s.written[r.val] = true
      · exact .inl (by simp [State.readReg, h, hw])
      · exact .inr ⟨rfl, ⟨r.val, h⟩, rfl, by simpa using hw, by simp [State.readReg, h, hw]⟩
    · exact .inl (by simp [State.readReg, h])

@[simp] theorem raiseFrom_fault (s : State) (k : FaultKind) (v : Byte) :
    raiseFrom s (.fault k v) = .next (s.takeFault k v) := rfl

@[simp] theorem raiseFrom_unwritten (s : State) (q : Fin 7) :
    raiseFrom s (.unwritten q) = .next (s.takeUnwritten q) := rfl

@[simp] theorem complete_error (m : Mnemonic) (s : State) (r : Raised) :
    complete m s (.error r) = raiseFrom s r := rfl

@[simp] theorem complete_ok (m : Mnemonic) (s t : State) :
    complete m s (.ok t) = .next (if m = .hlt then t else t.setPc (s.pc + BitVec.ofNat 9 m.width)) := rfl

/-- The end of a step always answers a next state: the handler's state with the pc moved past the instruction (kept, for
HLT), or a fault taken from the state before. -/
theorem complete_next {m : Mnemonic} {s t : State} {h : Except Raised State} (e : complete m s h = .next t) :
    (∃ u, h = .ok u ∧ t = if m = .hlt then u else u.setPc (s.pc + BitVec.ofNat 9 m.width)) ∨
    (∃ r, h = .error r ∧ t = s.afterRaise r) := by
  cases h with
  | ok u =>
    simp only [complete_ok, Host.Outcome.next.injEq] at e
    exact .inl ⟨u, rfl, e.symm⟩
  | error r =>
    simp only [complete_error, raiseFrom, Host.Outcome.next.injEq] at e
    exact .inr ⟨r, rfl, e.symm⟩

/-- A write of a register: the written set gains it if it is one of R0..R6. -/
theorem State.written_setReg (s : State) (r : Fin 8) (v : Byte) (q : Fin 7) :
    (s.setReg r v).written[q.val] = if r.val = q.val then true else s.written[q.val] := by
  simp only [State.setReg]
  split
  · simp only [Vector.getElem_set]
  · rename_i h
    have hq := q.isLt
    rw [if_neg (by omega)]

/-- Reading memory after a write, in a memory of canonical form. -/
theorem State.memRead_memWrite {s : State} (h : s.mem.wf) (a b : Addr) (v : Byte) :
    (s.memWrite a v).memRead b = if b = a then v else s.memRead b := by
  simp only [State.memRead, State.memWrite_mem, Memory.read_write h.1, BitVec.toNat_inj]

end Sys2Proof.Machine
end

