-- ==== Sys2Proof/Laws/Handlers.lean ====
section
/-! SUPPORT. What each handler gives on each of its paths, so that a later proof cites it and does not unfold the handler. -/

namespace Sys2Proof.Machine

variable {s t : State}

@[simp] theorem handleHlt_eq (s : State) : handleHlt s = .ok { s with state := .halted } := rfl

theorem handleLdi_ok {a : Byte} {r : Fin 8} (ha : a.toNat = r.val) (imm : Byte) (s : State) :
    handleLdi a imm s = .ok (s.setReg r imm) := by
  simp [handleLdi, regOperand_of_eq ha, immOperand]

theorem handlePrn_ok {a : Byte} {r : Fin 8} (ha : a.toNat = r.val) (s : State) :
    handlePrn .draw a s = .ok (s.emit (s.reg r)) := by
  simp [handlePrn, regOperand_of_eq ha]

theorem alu_ok {op : AluOp} {f : Byte → Byte → Byte} (hf : op.compute = some f) {a b : Byte} {r q : Fin 8}
    (ha : a.toNat = r.val) (hb : b.toNat = q.val) (s : State) :
    alu .draw op a b s = .ok (s.setReg r (f (s.reg r) (s.reg q))) := by
  simp [alu, regOperand_of_eq ha, regOperand_of_eq hb, hf]

theorem handlePush_ok {a : Byte} {r : Fin 8} (ha : a.toNat = r.val) (hs : s.sp ≠ 0) :
    handlePush .draw a s =
      .ok ((s.setSp (s.sp - 1)).memWrite (s.sp - 1) ((s.setSp (s.sp - 1)).reg r)) := by
  simp only [handlePush, regOperand_of_eq ha, handler_ok_bind, if_neg hs, State.readReg_draw, State.sp_setSp]

theorem handlePop_ok {a : Byte} {r : Fin 8} (ha : a.toNat = r.val) (hs : poppedSp s r ≤ 255) :
    handlePop a s = .ok ((s.setReg r (s.memRead s.sp)).setSp (BitVec.ofNat 8 (poppedSp s r))) := by
  have hn : ¬ 255 < poppedSp s r := Nat.not_lt.mpr hs
  simp [handlePop, regOperand_of_eq ha, hn]

/-- LDI's only ways to a result. -/
theorem handleLdi_cases (a imm : Byte) (s : State) :
    (∃ r : Fin 8, a.toNat = r.val ∧ handleLdi a imm s = .ok (s.setReg r imm)) ∨
    (8 ≤ a.toNat ∧ handleLdi a imm s = .error (.fault .registerIndexOutOfRange a)) := by
  rcases regOperand_cases a with ⟨r, ha, -⟩ | ⟨ha, e⟩
  · exact .inl ⟨r, ha, handleLdi_ok ha imm s⟩
  · exact .inr ⟨ha, by simp [handleLdi, e]⟩

/-- PRN's only ways to a result. -/
theorem handlePrn_cases (a : Byte) (s : State) :
    (∃ r : Fin 8, a.toNat = r.val ∧ handlePrn .draw a s = .ok (s.emit (s.reg r))) ∨
    (8 ≤ a.toNat ∧ handlePrn .draw a s = .error (.fault .registerIndexOutOfRange a)) := by
  rcases regOperand_cases a with ⟨r, ha, -⟩ | ⟨ha, e⟩
  · exact .inl ⟨r, ha, handlePrn_ok ha s⟩
  · exact .inr ⟨ha, by simp [handlePrn, e]⟩

/-- MUL's only ways to a result: operand_a is checked first (R124). -/
theorem handleMul_cases (a b : Byte) (s : State) :
    (∃ r q : Fin 8, a.toNat = r.val ∧ b.toNat = q.val ∧
      handleMul .draw a b s = .ok (s.setReg r (s.reg r * s.reg q))) ∨
    (8 ≤ a.toNat ∧ handleMul .draw a b s = .error (.fault .registerIndexOutOfRange a)) ∨
    (a.toNat < 8 ∧ 8 ≤ b.toNat ∧ handleMul .draw a b s = .error (.fault .registerIndexOutOfRange b)) := by
  rcases regOperand_cases a with ⟨r, ha, e⟩ | ⟨ha, e⟩
  · rcases regOperand_cases b with ⟨q, hb, e'⟩ | ⟨hb, e'⟩
    · exact .inl ⟨r, q, ha, hb, alu_ok (f := fun x y => x * y) rfl ha hb s⟩
    · exact .inr (.inr ⟨by omega, hb, by simp [handleMul, alu, e, e']⟩)
  · exact .inr (.inl ⟨ha, by simp [handleMul, alu, e]⟩)

/-- PUSH's only ways to a result. -/
theorem handlePush_cases (a : Byte) (s : State) :
    (∃ r : Fin 8, a.toNat = r.val ∧ s.sp ≠ 0 ∧ handlePush .draw a s =
      .ok ((s.setSp (s.sp - 1)).memWrite (s.sp - 1) ((s.setSp (s.sp - 1)).reg r))) ∨
    (8 ≤ a.toNat ∧ handlePush .draw a s = .error (.fault .registerIndexOutOfRange a)) ∨
    (a.toNat < 8 ∧ s.sp = 0 ∧ handlePush .draw a s = .error (.fault .stackBoundaryViolation s.sp)) := by
  rcases regOperand_cases a with ⟨r, ha, e⟩ | ⟨ha, e⟩
  · by_cases hs : s.sp = 0
    · exact .inr (.inr ⟨by omega, hs, by simp [handlePush, e, hs]⟩)
    · exact .inl ⟨r, ha, hs, handlePush_ok ha hs⟩
  · exact .inr (.inl ⟨ha, by simp [handlePush, e]⟩)

/-- POP's only ways to a result. -/
theorem handlePop_cases (a : Byte) (s : State) :
    (∃ r : Fin 8, a.toNat = r.val ∧ poppedSp s r ≤ 255 ∧ handlePop a s =
      .ok ((s.setReg r (s.memRead s.sp)).setSp (BitVec.ofNat 8 (poppedSp s r)))) ∨
    (8 ≤ a.toNat ∧ handlePop a s = .error (.fault .registerIndexOutOfRange a)) ∨
    (a.toNat < 8 ∧ handlePop a s = .error (.fault .stackBoundaryViolation s.sp)) := by
  rcases regOperand_cases a with ⟨r, ha, e⟩ | ⟨ha, e⟩
  · by_cases hs : poppedSp s r ≤ 255
    · exact .inl ⟨r, ha, hs, handlePop_ok ha hs⟩
    · have hn : 255 < poppedSp s r := Nat.lt_of_not_le hs
      exact .inr (.inr ⟨by omega, by simp [handlePop, e, hn]⟩)
  · exact .inr (.inl ⟨ha, by simp [handlePop, e]⟩)

/-- Every meaning is the end of a step over its handler, under the setting the machine runs with. -/
@[simp] theorem exec_hlt (s : State) : exec .hlt s = complete .hlt s (handleHlt s) := rfl
@[simp] theorem exec_ldi (a imm : Byte) (s : State) : exec (.ldi a imm) s = complete .ldi s (handleLdi a imm s) := rfl
@[simp] theorem exec_prn (a : Byte) (s : State) : exec (.prn a) s = complete .prn s (handlePrn .draw a s) := rfl
@[simp] theorem exec_mul (a b : Byte) (s : State) : exec (.mul a b) s = complete .mul s (handleMul .draw a b s) := rfl
@[simp] theorem exec_push (a : Byte) (s : State) : exec (.push a) s = complete .push s (handlePush .draw a s) := rfl
@[simp] theorem exec_pop (a : Byte) (s : State) : exec (.pop a) s = complete .pop s (handlePop a s) := rfl

/-- Fetch's only answers: the range fault, or the three bytes at pc, pc+1 and pc+2. -/
theorem fetch_cases (s : State) :
    (253 < s.pc.toNat ∧ fetch s = .error (.fault .fetchOutOfRange 0)) ∨
    (s.pc.toNat ≤ 253 ∧
      fetch s = .ok (s.mem.read s.pc.toNat, s.mem.read (s.pc.toNat + 1), s.mem.read (s.pc.toNat + 2))) := by
  unfold fetch
  by_cases h : s.pc.toNat + 2 > 255
  · exact .inl ⟨by omega, by rw [if_pos h]⟩
  · refine .inr ⟨by omega, ?_⟩
    have h0 : (s.pc.setWidth 8).toNat = s.pc.toNat := by
      simp only [BitVec.toNat_setWidth]; omega
    have h1 : (s.pc.setWidth 8 + 1 : Addr).toNat = s.pc.toNat + 1 := by
      have one : (1 : Addr).toNat = 1 := rfl
      simp only [BitVec.toNat_add, h0, one]; omega
    have h2 : (s.pc.setWidth 8 + 2 : Addr).toNat = s.pc.toNat + 2 := by
      have two : (2 : Addr).toNat = 2 := rfl
      simp only [BitVec.toNat_add, h0, two]; omega
    simp only [if_neg h, State.memRead, h0, h1, h2]

end Sys2Proof.Machine
end

