-- ==== Sys2Proof/Laws/PerInstr.lean ====
section
/-! SUPPORT. The per-instruction family EncodingShape: an instruction's bytes are its opcode and its operand bytes, as many as its width
says (R70, R71), and those bytes with any bytes after them decode to it (R72, R77). -/

namespace Sys2Proof.Laws.EncodingShape

/-- The bytes of `i` have its width, begin with its opcode, and decode to it whatever bytes follow. -/
def Statement (i : Instr) : Prop :=
  (encode i).length = i.mnemonic.width ∧ (encode i).head? = some i.mnemonic.opcode ∧
  ∀ x y : Byte, decode ((encode i ++ [x, y]).getD 0 0) ((encode i ++ [x, y]).getD 1 0)
    ((encode i ++ [x, y]).getD 2 0) = .ok i

theorem hlt : Statement .hlt := ⟨rfl, rfl, fun _ _ => rfl⟩
theorem ldi (a imm : Byte) : Statement (.ldi a imm) := ⟨rfl, rfl, fun _ _ => rfl⟩
theorem prn (a : Byte) : Statement (.prn a) := ⟨rfl, rfl, fun _ _ => rfl⟩
theorem mul (a b : Byte) : Statement (.mul a b) := ⟨rfl, rfl, fun _ _ => rfl⟩
theorem push (a : Byte) : Statement (.push a) := ⟨rfl, rfl, fun _ _ => rfl⟩
theorem pop (a : Byte) : Statement (.pop a) := ⟨rfl, rfl, fun _ _ => rfl⟩

end Sys2Proof.Laws.EncodingShape
end

