-- ==== Sys2Proof/Laws/Step.lean ====
section
/-! SUPPORT. What fetch and a step can do, said once, and how a run unfolds. -/

namespace Sys2Proof.Machine

variable {s t : State}

/-- Fetching and decoding has three answers: the range fault, the unknown opcode, or the row's instruction. -/
theorem fetchDecode_cases (s : State) :
    (253 < s.pc.toNat ∧ fetchDecode s = .error (.fault .fetchOutOfRange 0)) ∨
    (s.pc.toNat ≤ 253 ∧ lookupOpcode (s.mem.read s.pc.toNat) = none ∧
      fetchDecode s = .error (.fault .unknownOpcode (s.mem.read s.pc.toNat))) ∨
    (s.pc.toNat ≤ 253 ∧ ∃ m : Mnemonic, s.mem.read s.pc.toNat = m.opcode ∧
      fetchDecode s = .ok (m.withOperands (s.mem.read (s.pc.toNat + 1)) (s.mem.read (s.pc.toNat + 2)))) := by
  rcases fetch_cases s with ⟨h, e⟩ | ⟨h, e⟩
  · exact .inl ⟨h, by simp [fetchDecode, e]⟩
  · cases hl : lookupOpcode (s.mem.read s.pc.toNat) with
    | none => exact .inr (.inl ⟨h, rfl, by simp [fetchDecode, e, decode, hl]⟩)
    | some row =>
      exact .inr (.inr ⟨h, row.mnemonic, (lookupOpcode_some hl).1, by simp [fetchDecode, e, decode, hl]⟩)

@[simp] theorem withOperands_mnemonic (m : Mnemonic) (b1 b2 : Byte) : (m.withOperands b1 b2).mnemonic = m := by
  cases m <;> rfl

theorem width_bounds (m : Mnemonic) : 1 ≤ m.width ∧ m.width ≤ 3 := by
  cases m <;> decide

/-- A Running engine's step is the meaning of the instruction it fetched. -/
theorem step_of_ok (hs : s.state = .running) {i : Instr} (h : fetchDecode s = .ok i) : step s = exec i s := by
  simp only [step, hs, h]

/-- A Running engine's step is the fault that fetching and decoding raised. -/
theorem step_of_error (hs : s.state = .running) {r : Raised} (h : fetchDecode s = .error r) :
    step s = raiseFrom s r := by
  simp only [step, hs, h]

/-- How a run unfolds at a step that answers a next state. -/
theorem run_succ (h : step s = .next t) (n : Nat) :
    Host.Core.run core (n + 1) s = Host.Core.run core n t := by
  have e : core.step s = .next t := h
  simp only [Host.Core.run, e]

@[simp] theorem run_zero (s : State) : Host.Core.run core 0 s = .next s := rfl

/-- pc after an instruction that a step can fetch: no wrap (R26). -/
theorem pc_advance_toNat {p : PcVal} (hp : p.toNat ≤ 253) (m : Mnemonic) :
    (p + BitVec.ofNat 9 m.width).toNat = p.toNat + m.width := by
  have hb := width_bounds m
  simp only [BitVec.toNat_add, BitVec.toNat_ofNat]
  omega

/-- SP after a decrement that does not wrap. -/
theorem sp_pred_toNat {b : Byte} (h : b ≠ 0) : (b - 1).toNat = b.toNat - 1 := by
  have hb : b.toNat ≠ 0 := fun e => h (BitVec.eq_of_toNat_eq e)
  have hl := b.isLt
  have one : (1 : Byte).toNat = 1 := rfl
  simp only [BitVec.toNat_sub, one]
  omega

/-- Both settings of `UNWRITTEN_READ` share every definition: the machine is the one that draws. -/
theorem execUnder_draw (i : Instr) (s : State) : execUnder .draw i s = exec i s := by
  cases i <;> rfl

/-- A register read under either setting is the machine's own, or under `fault` the model-only fault of an unwritten register. -/
theorem readReg_eq_draw (u : UnwrittenRead) (s : State) (r : Fin 8) :
    s.readReg u r = s.readReg .draw r ∨
    (u = .fault ∧ ∃ q : Fin 7, s.written[q] = false ∧ s.readReg u r = .error (.unwritten q)) := by
  rcases State.readReg_cases u s r with h | ⟨hu, q, -, hq, h⟩
  · exact .inl h
  · exact .inr ⟨hu, q, hq, h⟩

/-- All that the checking machine adds to an instruction: the model-only fault of an unwritten register (R148). -/
theorem execUnder_cases (u : UnwrittenRead) (i : Instr) (s : State) :
    execUnder u i s = exec i s ∨
    (u = .fault ∧ ∃ q : Fin 7, s.written[q] = false ∧ execUnder u i s = .next (s.takeUnwritten q)) := by
  cases i with
  | hlt => exact .inl rfl
  | ldi a imm => exact .inl rfl
  | pop a => exact .inl rfl
  | prn a =>
    rcases regOperand_cases a with ⟨r, -, e⟩ | ⟨-, e⟩
    · rcases readReg_eq_draw u s r with h | ⟨hu, q, hq, h⟩
      · left; simp [execUnder, execPrnUnder, handlePrn, e, h]
      · exact .inr ⟨hu, q, hq, by simp [execUnder, execPrnUnder, handlePrn, e, h]⟩
    · left; simp [execUnder, execPrnUnder, handlePrn, e]
  | mul a b =>
    rcases regOperand_cases a with ⟨r, -, e⟩ | ⟨-, e⟩
    · rcases regOperand_cases b with ⟨p, -, e'⟩ | ⟨-, e'⟩
      · rcases readReg_eq_draw u s r with h | ⟨hu, q, hq, h⟩
        · rcases readReg_eq_draw u s p with h' | ⟨hu, q, hq, h'⟩
          · left; simp [execUnder, execMulUnder, handleMul, alu, AluOp.compute, e, e', h, h']
          · exact .inr ⟨hu, q, hq, by simp [execUnder, execMulUnder, handleMul, alu, AluOp.compute, e, e', h, h']⟩
        · exact .inr ⟨hu, q, hq, by simp [execUnder, execMulUnder, handleMul, alu, AluOp.compute, e, e', h]⟩
      · left; simp [execUnder, execMulUnder, handleMul, alu, e, e']
    · left; simp [execUnder, execMulUnder, handleMul, alu, e]
  | push a =>
    rcases regOperand_cases a with ⟨r, -, e⟩ | ⟨-, e⟩
    · by_cases hs : s.sp = 0
      · left; simp [execUnder, execPushUnder, handlePush, e, hs]
      · rcases readReg_eq_draw u (s.setSp (s.sp - 1)) r with h | ⟨hu, q, hq, h⟩
        · left
          simp only [execUnder, exec_push, execPushUnder, handlePush, e, handler_ok_bind, if_neg hs, h]
        · refine .inr ⟨hu, q, by simpa using hq, ?_⟩
          simp only [execUnder, execPushUnder, handlePush, e, handler_ok_bind, if_neg hs, h, handler_error_bind,
            complete_error, raiseFrom_unwritten]
    · left; simp [execUnder, execPushUnder, handlePush, e]

/-- All that the checking machine adds to a step, and only a Running engine that can fetch meets it. -/
theorem stepUnder_cases (u : UnwrittenRead) (s : State) :
    stepUnder u s = step s ∨
    (u = .fault ∧ s.state = .running ∧ s.pc.toNat ≤ 253 ∧
      ∃ q : Fin 7, s.written[q] = false ∧ stepUnder u s = .next (s.takeUnwritten q)) := by
  cases hs : s.state with
  | halted => left; simp only [stepUnder, step, hs]
  | faulted => left; simp only [stepUnder, step, hs]
  | running =>
    rcases fetchDecode_cases s with ⟨-, e⟩ | ⟨-, -, e⟩ | ⟨hp, m, -, e⟩
    · left; simp only [stepUnder, step, hs, e]
    · left; simp only [stepUnder, step, hs, e]
    · rcases execUnder_cases u (m.withOperands (s.mem.read (s.pc.toNat + 1)) (s.mem.read (s.pc.toNat + 2))) s with
        h | ⟨hu, q, hq, h⟩
      · left; simp only [stepUnder, step, hs, e, h]
      · exact .inr ⟨hu, rfl, hp, q, hq, by simp only [stepUnder, hs, e, h]⟩

end Sys2Proof.Machine
end

