-- ==== Sys2Proof/Tests/Slice0.lean ====
section
/-! SUPPORT. Tests: expected results are the vectors of 95_test_vectors.md (their ids stand in the comments), and for each statement with
hypotheses a witness that meets them. -/

namespace Sys2Proof.Machine

/-- A Running engine with `bytes` at address `p`, pc there, the registers `r`, and nothing written since reset. -/
def testState (p : Nat) (bytes : List Byte) (r : Vector Byte 8) : State :=
  { (State.reset.storeBytes p bytes) with pc := BitVec.ofNat 9 p, regs := r }

/-- What an outcome's next state says, if it is one. -/
def seen {α : Type} (o : Host.Outcome State Fault Refusal) (f : State → α) : Option α :=
  match o with
  | .next t => some (f t)
  | .fault _ => none
  | .refused _ => none

/-- Registers of the tests: R0 = 200, R1 = 2, R2 = 9, R3 = 4, R4 = 0, R5 = 250, R6 = 10, SP = 244. -/
def testRegs : Vector Byte 8 := #v[200, 2, 9, 4, 0, 250, 10, 244]

/-- The test registers with another SP. -/
def withSp (v : Byte) : Vector Byte 8 := testRegs.set 7 v

/-! ### Well-formedness and decoding -/

/-- One ill-formed term for each register operand of each instruction. -/
theorem test_illFormed :
    (Instr.ldi 8 0).wellFormed = false ∧ (Instr.prn 255).wellFormed = false ∧
    (Instr.mul 8 0).wellFormed = false ∧ (Instr.mul 0 8).wellFormed = false ∧
    (Instr.push 9).wellFormed = false ∧ (Instr.pop 128).wellFormed = false ∧
    (Instr.ldi 7 255).wellFormed = true := by decide

/-- L1-8 and 30_encoding.md section 4: words written out bit by bit. -/
theorem test_decode_words :
    decode 0b00000001 0 0 = .ok .hlt ∧
    decode 0b10000010 0b00000000 0b00001000 = .ok (.ldi 0 8) ∧
    decode 0b01000111 0b00000000 0 = .ok (.prn 0) ∧
    decode 0b10100010 0b00000010 0b00000011 = .ok (.mul 2 3) ∧
    decode 0b01000101 0b00000011 0 = .ok (.push 3) ∧
    decode 0b01000110 0b00000001 0 = .ok (.pop 1) := by decide

/-- E-1 to E-4: zeroed memory, 0xFF, another machine's ADD, and an unlisted byte of arity bits 00. -/
theorem test_decode_rejects :
    decode 0x00 0 0 = .error (.unknownOpcode 0x00) ∧ decode 0xFF 0 0 = .error (.unknownOpcode 0xFF) ∧
    decode 0xA0 0 0 = .error (.unknownOpcode 0xA0) ∧ decode 0x02 0 0 = .error (.unknownOpcode 0x02) := by decide

/-- Program P1's bytes, and a stream that ends inside an instruction. -/
theorem test_decode_stream :
    decodeProgram [0x82, 0, 8, 0x47, 0, 1] = .ok [.ldi 0 8, .prn 0, .hlt] ∧
    encodeProgram [.ldi 0 8, .prn 0, .hlt] = [0x82, 0, 8, 0x47, 0, 1] ∧
    decodeStream [0x82, 0] = .error .truncated := by decide

theorem test_decodeTableWord :
    decodeTableWord 8 1 = some .hlt ∧ decodeTableWord 24 0x030282 = some (.ldi 2 3) ∧
    decodeTableWord 16 0x0547 = some (.prn 5) ∧ decodeTableWord 8 0 = none := by decide

/-- A placed word is what the first step after reset runs. -/
theorem test_withFetchWord :
    seen (step (State.reset.withFetchWord 24 0x080082)) (fun t => (t.reg 0, t.pc)) = some (8, 3) ∧
    seen (step (State.reset.withFetchWord 8 1)) (fun t => t.state) = some .halted := by decide

/-! ### Reset (L1-9) -/

theorem test_reset :
    State.reset.sp = 244 ∧ State.reset.sp = 0b11110100 ∧ State.reset.pc = 0 ∧ State.reset.state = .running ∧
    State.reset.memRead 255 = 0 := by decide

theorem test_reset_inv : State.reset.Inv :=
  ⟨by decide, by decide, by decide, by decide, by decide, by decide⟩

/-! ### Instructions -/

/-- LDI-1 -/
theorem test_ldi : seen (step (testState 0 [0x82, 0, 8] testRegs)) (fun t => (t.reg 0, t.pc, t.written[0])) =
    some (8, 3, true) := by decide

/-- LDI-6: operand byte 0xFF is not R7. -/
theorem test_ldi_index : seen (step (testState 0 [0x82, 0xFF, 5] testRegs))
    (fun t => (t.state, t.fault, t.sp, t.pc)) =
    some (.faulted, { cause := 2, pc := 0, info := 0xFF }, 244, 0) := by decide

/-- PRN-4 -/
theorem test_prn : seen (step (testState 0 [0x47, 7] testRegs)) (fun t => (t.out, t.pc)) = some ([244], 2) := by
  decide

/-- PRN-5 -/
theorem test_prn_index : seen (step (testState 0 [0x47, 8] testRegs)) (fun t => (t.out, t.fault)) =
    some ([], { cause := 2, pc := 0, info := 8 }) := by decide

/-- MUL-5 (200 * 2 = 400) -/
theorem test_mul : seen (step (testState 0 [0xA2, 0, 1] testRegs)) (fun t => (t.reg 0, t.reg 1, t.pc)) =
    some (144, 2, 3) := by decide

/-- MUL-10: operand_a is reported first. -/
theorem test_mul_index : seen (step (testState 0 [0xA2, 9, 10] testRegs)) (fun t => t.fault) =
    some { cause := 2, pc := 0, info := 9 } := by decide

/-- PUSH-2: the decremented SP is stored. -/
theorem test_push_sp : seen (step (testState 0 [0x45, 7] testRegs)) (fun t => (t.sp, t.memRead 243, t.pc)) =
    some (243, 243, 2) := by decide

/-- PUSH-4: SP = 0. -/
theorem test_push_bottom : seen (step (testState 0 [0x45, 0] (withSp 0))) (fun t => (t.fault, t.sp, t.pc)) =
    some ({ cause := 3, pc := 0, info := 0 }, 0, 0) := by decide

/-- POP-3: POP R7 leaves the byte plus one. -/
theorem test_pop_sp : seen (step ((testState 0 [0x46, 7] (withSp 243)).memWrite 243 10)) (fun t => (t.sp, t.pc)) =
    some (11, 2) := by decide

/-- POP-4: SP = 255. -/
theorem test_pop_top : seen (step (testState 0 [0x46, 0] (withSp 255))) (fun t => (t.fault, t.reg 0)) =
    some ({ cause := 3, pc := 0, info := 255 }, 200) := by decide

/-- HLT-1 and E-5: pc is kept; an instruction at 253 is in range. -/
theorem test_hlt : seen (step (testState 253 [1, 0, 0] testRegs)) (fun t => (t.state, t.pc)) =
    some (.halted, 253) := by decide

/-- E-6: HLT at 254 is not executed. -/
theorem test_fetch_range : seen (step (testState 254 [1, 0] testRegs)) (fun t => (t.state, t.fault)) =
    some (.faulted, { cause := 4, pc := 254, info := 0 }) := by decide

/-- ALU-1: 250 + 10 = 4; ALU-4: SUB is no operation of the ALU. -/
theorem test_alu :
    (alu .draw .add 5 6 (testState 0 [] testRegs)).toOption.map (fun t => t.reg 5) = some 4 ∧
    alu .draw (.other "SUB") 5 6 (testState 0 [] testRegs) =
      .error (.fault .unsupportedALUOperation 0) := by decide

/-- PRN-6 and PRN-7: the two settings of `UNWRITTEN_READ`. -/
theorem test_unwritten :
    handlePrn .fault 0 (testState 0 [] testRegs) = .error (.unwritten 0) ∧
    (handlePrn .draw 0 (testState 0 [] testRegs)).toOption.map (fun t => t.out) = some [200] := by decide

/-- PRN-6, the step: Faulted at pc 0 under the fault's own name, nothing emitted; MUL-11: R1 unwritten, R0 kept. -/
theorem test_unwritten_step :
    seen (stepUnder .fault (testState 0 [0x47, 0] testRegs)) (fun t => (t.state, t.fault.pc, t.modelFault, t.out)) =
      some (.faulted, 0, some (.unwrittenRegisterRead 0), []) ∧
    seen (stepUnder .fault ((testState 0 [0xA2, 0, 1] testRegs).setReg 0 3))
      (fun t => (t.state, t.modelFault, t.reg 0, t.pc)) =
      some (.faulted, some (.unwrittenRegisterRead 1), 3, 0) := by decide

/-! ### Text and the boundary -/

/-- P1's text, with the spellings 30_encoding.md section 4 allows. -/
theorem test_assemble :
    assemble ['L', 'D', 'I', ' ', 'R', '0', ',', '8', ';', ' ', 'P', 'R', 'N', ' ', 'R', '0', '\n', 'H', 'L', 'T'] =
      some [0x82, 0, 8, 0x47, 0, 1] ∧
    readStatement ['P', 'U', 'S', 'H', ' ', 'S', 'P'] = some (.push 7) ∧
    readStatement ['L', 'D', 'I', ' ', 'R', '1', ',', ' ', '0', 'x', 'F', 'F'] = some (.ldi 1 255) ∧
    readStatement ['P', 'R', 'N', ' ', 'R', '8'] = none ∧ instrText (.prn 8) = none := by decide

/-- PRN-1, PRN-2, PRN-3: the rendered lines. -/
theorem test_render :
    renderOut [8, 255, 0] = ['8', '\n', '2', '5', '5', '\n', '0', '\n'] := by decide

/-- Boot (R171) and the refusals of the protocol. -/
theorem test_boundary :
    (boot Config.resetDraw [0x47, 7, 1]).map (fun b => (b.phase, b.engine.memRead 1, b.observe.byte2)) =
      some (.started, 7, some 1) ∧
    (boot Config.resetDraw [1]).bind (fun b => b.apply (.load 0 5)) = none ∧
    (Block.afterReset Config.resetDraw).apply .step = none := by decide

/-! ### Witnesses: each meets every hypothesis of the statement it names, clause by clause -/

/-- SP at `v`, the bytes at 0. -/
def spState (v : Byte) (bytes : List Byte) : State := testState 0 bytes (withSp v)

theorem witness_OtherOpcodesAreRejected :
    (0xA2 : Byte) ∈ [(0x01 : Byte), 0x45, 0x46, 0x47, 0x82, 0xA2] ∧
    (0xA0 : Byte) ∉ [(0x01 : Byte), 0x45, 0x46, 0x47, 0x82, 0xA2] := by decide

theorem witness_DecodedProgramsEncodeBack : decodeProgram [0xA2, 9, 255, 1] = .ok [.mul 9 255, .hlt] := by decide

theorem witness_UnusedBytesHaveNoEffect :
    (testState 253 [0x47, 7, 1] testRegs).mem.wf ∧ (testState 253 [0x47, 7, 1] testRegs).pc.toNat ≤ 253 ∧
    fetchDecode (testState 253 [0x47, 7, 1] testRegs) = .ok (.prn 7) ∧
    (Instr.prn 7).mnemonic.width ≤ 2 := by decide

theorem witness_AssemblerTextReadsBack :
    (Instr.mul 7 0).wellFormed = true ∧ (Instr.mul 7 8).wellFormed = false := by decide

theorem witness_RenderedLineIsDecimal : (decimalText 0).head? = some '0' := by decide

theorem witness_LdiLoadsItsImmediate :
    (7 : Byte).toNat = (7 : Fin 8).val ∧ (0 : Byte).toNat = (0 : Fin 8).val ∧ 8 ≤ (8 : Byte).toNat := by decide

theorem witness_PrnEmitsItsRegister :
    (7 : Byte).toNat = (7 : Fin 8).val ∧ 8 ≤ (8 : Byte).toNat ∧
    (6 : Byte).toNat = (6 : Fin 7).val ∧ State.reset.written[(6 : Fin 7)] = false := by decide

theorem witness_AluWritesOnlyRegisterA :
    ((7 : Byte).toNat = (7 : Fin 8).val ∧ (0 : Byte).toNat = (0 : Fin 8).val) ∧
    8 ≤ (8 : Byte).toNat ∧ ((7 : Byte).toNat < 8 ∧ 8 ≤ (8 : Byte).toNat) := by decide

theorem witness_MulMultipliesIntoRegisterA :
    ((0 : Byte).toNat = (0 : Fin 8).val ∧ (7 : Byte).toNat = (7 : Fin 8).val) ∧
    8 ≤ (255 : Byte).toNat ∧ ((7 : Byte).toNat < 8 ∧ 8 ≤ (8 : Byte).toNat) := by decide

theorem witness_PushStoresBelowTheStackPointer :
    (7 : Byte).toNat = (7 : Fin 8).val ∧ (spState 1 [0x45, 7]).sp ≠ 0 ∧ (spState 1 [0x45, 7]).mem.wf ∧
    (2 : Nat) ≠ ((spState 1 [0x45, 7]).sp - 1).toNat := by decide

theorem witness_PushTrapsAtTheBottom :
    8 ≤ (8 : Byte).toNat ∧ ((7 : Byte).toNat < 8 ∧ (spState 0 [0x45, 7]).sp = 0) := by decide

/-- POP R7 at its largest byte, and POP R6 at its largest SP. -/
theorem witness_PopReadsThenIncrements :
    ((7 : Byte).toNat = (7 : Fin 8).val ∧ (7 : Fin 8) = Config.spIndex ∧
      ((spState 200 []).memWrite 200 254).memRead ((spState 200 []).memWrite 200 254).sp ≠ 255) ∧
    ((6 : Byte).toNat = (6 : Fin 8).val ∧ (6 : Fin 8) ≠ Config.spIndex ∧ (spState 254 []).sp ≠ 255) := by decide

theorem witness_PopTrapsAtTheTop :
    8 ≤ (8 : Byte).toNat ∧ ((6 : Byte).toNat < 7 ∧ (spState 255 []).sp = 255) ∧
    ((7 : Byte).toNat = 7 ∧
      ((spState 200 []).memWrite 200 255).memRead ((spState 200 []).memWrite 200 255).sp = 255) := by decide

theorem witness_RegisterIndexIsNeverWrapped :
    (8 ≤ (8 : Byte).toNat ∧ (7 : Byte).toNat < 8) ∧ 8 ≤ (255 : Byte).toNat ∧ (0 : Byte).toNat < 8 := by decide

theorem witness_FaultingStepCommitsNothing :
    (testState 0 [0x47, 8] testRegs).state = .running ∧
    ∃ t, step (testState 0 [0x47, 8] testRegs) = .next t ∧ t.state = .faulted := ⟨rfl, _, rfl, rfl⟩

theorem witness_FetchPastTheEndFaults :
    (testState 254 [] testRegs).state = .running ∧ 253 < (testState 254 [] testRegs).pc.toNat ∧
    253 < (testState 256 [] testRegs).pc.toNat := by decide

theorem witness_UnwrittenReadIsRaisedLast :
    ((6 : Byte).toNat = (6 : Fin 7).val ∧ State.reset.written[(6 : Fin 7)] = false ∧ State.reset.sp ≠ 0 ∧
      (7 : Byte).toNat < 8 ∧ 8 ≤ (8 : Byte).toNat ∧ (7 : Byte).toNat = (7 : Fin 8).val ∧ State.reset.Known 7) ∧
    ((spState 0 []).sp = 0 ∧ (spState 0 []).written[(6 : Fin 7)] = false) ∧
    ((3 : Byte).toNat = (3 : Fin 8).val ∧ (State.reset.setReg 3 0).Known 3 ∧ (State.reset.setReg 3 0).Known 7) :=
  ⟨⟨by decide, by decide, by decide, by decide, by decide, by decide, fun h => absurd h (by decide)⟩, by decide,
    by decide, fun _ => rfl, fun h => absurd h (by decide)⟩

theorem witness_DispatchSelectsTheRowsHandler :
    (testState 253 [1] testRegs).state = .running ∧ (testState 253 [1] testRegs).pc.toNat ≤ 253 ∧
    (testState 253 [0x01] testRegs).mem.read 253 = 0b00000001 ∧
    (testState 253 [0x82] testRegs).mem.read 253 = 0b10000010 ∧
    (testState 253 [0x47] testRegs).mem.read 253 = 0b01000111 ∧
    (testState 253 [0xA2] testRegs).mem.read 253 = 0b10100010 ∧
    (testState 253 [0x45] testRegs).mem.read 253 = 0b01000101 ∧
    (testState 253 [0x46] testRegs).mem.read 253 = 0b01000110 ∧
    (testState 253 [0xA0] testRegs).mem.read 253 ∉ [(0x01 : Byte), 0x45, 0x46, 0x47, 0x82, 0xA2] := by decide

theorem witness_StepRunsTheDecodedInstruction :
    (testState 253 [0xA2, 7, 8] testRegs).state = .running ∧ (testState 253 [0xA2, 7, 8] testRegs).pc.toNat ≤ 253 ∧
    decode ((testState 253 [0xA2, 7, 8] testRegs).mem.read (testState 253 [0xA2, 7, 8] testRegs).pc.toNat)
      ((testState 253 [0xA2, 7, 8] testRegs).mem.read ((testState 253 [0xA2, 7, 8] testRegs).pc.toNat + 1))
      ((testState 253 [0xA2, 7, 8] testRegs).mem.read ((testState 253 [0xA2, 7, 8] testRegs).pc.toNat + 2)) =
      .ok (.mul 7 8) := by decide

theorem witness_PlacedWordRunsNext :
    (testState 253 [5] testRegs).mem.wf ∧ (testState 253 [5] testRegs).pc.toNat ≤ 253 ∧
    (testState 253 [5] testRegs).state = .running ∧ decodeTableWord 24 0xFF0782 = some (.ldi 7 255) := by decide

theorem witness_EndedEngineDoesNothing :
    ({ State.reset with state := .halted } : State).Ended ∧ ({ State.reset with state := .faulted } : State).Ended := by
  decide

theorem witness_EngineStateChangesOnlyTwoWays :
    (∃ t, step (testState 253 [1] testRegs) = .next t ∧ t.state ≠ (testState 253 [1] testRegs).state) ∧
    (∃ t, step (testState 254 [1] testRegs) = .next t ∧ t.state ≠ (testState 254 [1] testRegs).state) :=
  ⟨⟨_, rfl, by decide⟩, ⟨_, rfl, by decide⟩⟩

theorem witness_PcAdvancesByTheWidth :
    (∃ t, step (testState 253 [0x82, 0, 0] testRegs) = .next t ∧ t.state = .running) ∧
    (∃ t, step (testState 253 [1] testRegs) = .next t ∧ t.state ≠ .running) :=
  ⟨⟨_, rfl, by decide⟩, ⟨_, rfl, by decide⟩⟩

theorem witness_OutputGrowsOnlyByPrn : ∃ t, step (testState 253 [0x47, 7] testRegs) = .next t := ⟨_, rfl⟩

/-- PUSH R0 at 0 with SP = 3: the byte stored at 2 is the next opcode. -/
theorem witness_PushedByteIsFetched :
    ((spState 3 [0x45, 0]).state = .running ∧ (spState 3 [0x45, 0]).pc.toNat ≤ 253 ∧ (spState 3 [0x45, 0]).mem.wf ∧
      (spState 3 [0x45, 0]).sp ≠ 0 ∧ (spState 3 [0x45, 0]).mem.read (spState 3 [0x45, 0]).pc.toNat = 0x45 ∧
      ((spState 3 [0x45, 0]).mem.read ((spState 3 [0x45, 0]).pc.toNat + 1)).toNat = (0 : Fin 8).val ∧
      (2 : PcVal).toNat ≤ 253) ∧
    (∃ t, step (spState 3 [0x45, 0]) = .next t) ∧
    ∃ f : Nat → Byte, ∀ x, f x =
      if x = ((spState 3 [0x45, 0]).sp - 1).toNat then
        (if (0 : Fin 8) = Config.spIndex then (spState 3 [0x45, 0]).sp - 1 else (spState 3 [0x45, 0]).reg 0)
      else (spState 3 [0x45, 0]).mem.read x :=
  ⟨by decide, ⟨_, rfl⟩, _, fun _ => rfl⟩

theorem witness_LoadThenPrintReproducesTheValue :
    (testState 250 [0x82, 7, 9, 0x47, 7] testRegs).state = .running ∧
    (testState 250 [0x82, 7, 9, 0x47, 7] testRegs).pc.toNat ≤ 250 ∧
    (testState 250 [0x82, 7, 9, 0x47, 7] testRegs).mem.read 250 = 0x82 ∧
    ((testState 250 [0x82, 7, 9, 0x47, 7] testRegs).mem.read 251).toNat = (7 : Fin 8).val ∧
    (testState 250 [0x82, 7, 9, 0x47, 7] testRegs).mem.read 253 = 0x47 ∧
    (testState 250 [0x82, 7, 9, 0x47, 7] testRegs).mem.read 254 =
      (testState 250 [0x82, 7, 9, 0x47, 7] testRegs).mem.read 251 := by decide

theorem witness_OnlyTheStackTouchesMemory :
    (∃ t, exec (.pop 0) (spState 254 []) = .next t) ∧ (Instr.pop 0).mnemonic ≠ .push ∧
    (∃ t, exec (.prn 7) (spState 254 []) = .next t) ∧ (Instr.prn 7).mnemonic ≠ .push ∧
    (Instr.prn 7).mnemonic ≠ .pop ∧
    Memory.read [(3, 1)] (spState 254 []).sp.toNat = (spState 254 []).mem.read (spState 254 []).sp.toNat ∧
    (∃ t, exec (.push 7) (spState 1 []) = .next t) ∧ (spState 1 []).mem.wf ∧
    (7 : Byte).toNat < 8 ∧ (spState 1 []).sp ≠ 0 ∧ Memory.wf [(0, 9)] :=
  ⟨⟨_, rfl⟩, by decide, ⟨_, rfl⟩, by decide, by decide, by decide, ⟨_, rfl⟩, by decide, by decide, by decide,
    by decide⟩

theorem witness_BookkeepingChangesNoResult : ∃ t, exec (.pop 6) (spState 254 []) = .next t := ⟨_, rfl⟩

/-- Two states that differ in the unwritten R0, and a checked step that reads SP only. -/
theorem witness_CheckedStepsIgnoreResetValues :
    SameButUnwritten (testState 0 [0x47, 7] testRegs) (testState 0 [0x47, 7] (testRegs.set 0 1)) ∧
    ∃ t, stepUnder .fault (testState 0 [0x47, 7] testRegs) = .next t := by
  refine ⟨⟨rfl, rfl, rfl, rfl, rfl, rfl, rfl, fun q h => ?_⟩, _, rfl⟩
  have hq : q = 0 ∨ q ≠ 0 := by omega
  rcases hq with rfl | hq
  · exact absurd (h (by decide)) (by decide)
  · clear h
    revert q
    decide

theorem witness_PushThenPopRestores :
    (7 : Byte).toNat = (7 : Fin 8).val ∧ (6 : Byte).toNat = (6 : Fin 8).val ∧ (5 : Byte).toNat = (5 : Fin 8).val ∧
    (spState 1 []).sp ≠ 0 ∧ (spState 1 []).mem.wf ∧ (6 : Fin 8) ≠ Config.spIndex ∧ (5 : Fin 8) ≠ Config.spIndex := by
  decide

theorem witness_ReversedPopsRestoreEveryRegister :
    (∀ a ∈ [(7 : Byte), 0, 7], a.toNat < 8) ∧ [(7 : Byte), 0, 7].length ≤ (spState 3 []).sp.toNat ∧
    (spState 3 []).mem.wf ∧ (200 + 3 < (spState 244 []).sp.toNat) ∧ (spState 3 []).sp.toNat ≤ 3 := by decide

theorem witness_StackPointerCountsPushes :
    (∀ a ∈ [(7 : Byte), 0, 7], a.toNat < 8) ∧ [(7 : Byte), 0, 7].length = (spState 3 []).sp.toNat ∧
    (7 : Byte).toNat < 8 := by decide

theorem witness_StepKeepsTheInvariant :
    State.reset.Inv ∧ (∃ t, step State.reset = .next t) ∧ ∃ t, stepUnder .fault State.reset = .next t :=
  ⟨test_reset_inv, ⟨_, rfl⟩, _, rfl⟩

theorem witness_BootedBlockMeetsTheInvariant : ∃ b, boot Config.resetDraw [0x82, 0, 8] = some b := ⟨_, rfl⟩

theorem witness_BootPlacesTheImage :
    (List.replicate 256 (1 : Byte)).length ≤ 256 ∧ 256 < (List.replicate 257 (1 : Byte)).length := by
  simp only [List.length_replicate]
  decide

theorem witness_BoundaryAllowsOnlyTheProtocol :
    (Block.mk .started State.reset).phase = .started ∧ (Block.mk .started State.reset).engine.state = .running ∧
    (Block.mk .awaitingStart State.reset).phase = .awaitingStart ∧
    (Block.mk .started { State.reset with state := .halted }).engine.Ended := by decide

theorem witness_ObservationsReportTheState :
    (testState 255 [] testRegs).pc.toNat ≤ 255 ∧ (testState 254 [] testRegs).pc.toNat ≤ 254 ∧
    (testState 253 [] testRegs).pc.toNat ≤ 253 ∧ 255 < (testState 256 [] testRegs).pc.toNat ∧
    254 < (testState 255 [] testRegs).pc.toNat ∧ 253 < (testState 254 [] testRegs).pc.toNat := by decide

end Sys2Proof.Machine
end

section
/-! PROOFS. R72: the instruction at pc is decided by its own bytes, as many as its width, so a byte past them has no effect on it. -/

namespace Sys2Proof.Machine

/-- Two pairs of operand bytes that agree inside a mnemonic's width make the same instruction. -/
theorem withOperands_congr {m : Mnemonic} {b1 b2 c1 c2 : Byte} (h1 : 1 < m.width → b1 = c1) (h2 : 2 < m.width → b2 = c2) :
    m.withOperands b1 b2 = m.withOperands c1 c2 := by
  cases m with
  | hlt => rfl
  | ldi | mul => rw [h1 (by decide), h2 (by decide)]
  | prn | push | pop => exact congrArg _ (h1 (by decide))

/-- In fetch range, fetch answers the three bytes at pc. -/
theorem fetch_ok {s : State} (h : s.pc.toNat ≤ 253) :
    fetch s = .ok (s.mem.read s.pc.toNat, s.mem.read (s.pc.toNat + 1), s.mem.read (s.pc.toNat + 2)) := by
  rcases fetch_cases s with ⟨hout, -⟩ | ⟨-, e⟩
  · omega
  · exact e

/-- An instruction is fetched exactly in fetch range, where its opcode stands at pc and the two bytes after it give its operands. -/
theorem fetchDecode_eq_ok_iff {s : State} {i : Instr} :
    fetchDecode s = .ok i ↔
      s.pc.toNat ≤ 253 ∧ s.mem.read s.pc.toNat = i.mnemonic.opcode ∧
      i.mnemonic.withOperands (s.mem.read (s.pc.toNat + 1)) (s.mem.read (s.pc.toNat + 2)) = i := by
  constructor
  · intro h
    rcases fetchDecode_cases s with ⟨-, e⟩ | ⟨-, -, e⟩ | ⟨hpc, m, hop, e⟩
    · cases e.symm.trans h
    · cases e.symm.trans h
    · cases e.symm.trans h
      simp only [withOperands_mnemonic]
      exact ⟨hpc, hop, trivial⟩
  · rintro ⟨hpc, hop, hi⟩
    simp [fetchDecode, fetch_ok hpc, hop, decode_opcode, hi]

/-- A state that agrees with `s` on pc and on the bytes of the instruction at pc fetches the same instruction. -/
theorem fetchDecode_ok_of_agree {s t : State} {i : Instr} (h : fetchDecode s = .ok i) (hpc : t.pc = s.pc)
    (agree : ∀ j, j < i.mnemonic.width → t.mem.read (s.pc.toNat + j) = s.mem.read (s.pc.toNat + j)) :
    fetchDecode t = .ok i := by
  obtain ⟨hrange, hop, hi⟩ := fetchDecode_eq_ok_iff.mp h
  have hop' : t.mem.read s.pc.toNat = s.mem.read s.pc.toNat := agree 0 (width_bounds i.mnemonic).1
  rw [fetchDecode_eq_ok_iff, hpc]
  exact ⟨hrange, hop'.trans hop, (withOperands_congr (agree 1) (agree 2)).trans hi⟩

/-- Settles O6: the byte overwritten lies past the bytes of the instruction at pc, so the write leaves every one of them. -/
theorem unusedBytesHaveNoEffect : Obligations.UnusedBytesHaveNoEffect := by
  intro s hwf hpc
  refine ⟨fetch_ok hpc, fun i hi k hwidth hk v => fetchDecode_ok_of_agree hi (State.memWrite_pc ..) fun j hj => ?_⟩
  have haddr : (BitVec.ofNat 8 (s.pc.toNat + k)).toNat = s.pc.toNat + k := by
    simp only [BitVec.toNat_ofNat]
    omega
  rw [State.memWrite_mem, haddr, Memory.read_write hwf.1, if_neg (by omega)]

end Sys2Proof.Machine
end

section
/-! PROOFS. R91 and R94: in fetch range, the opcode byte at pc alone selects what a Running engine's step does. -/

namespace Sys2Proof.Machine

variable {s : State}

/-- The opcode column of R75 as a list of bytes. -/
theorem opcode_mem (m : Mnemonic) : m.opcode ∈ [(0x01 : Byte), 0x45, 0x46, 0x47, 0x82, 0xA2] := by
  cases m <;> decide

/-- Where a mnemonic's opcode stands at pc, the step runs that mnemonic's instruction of the two bytes after it (R91). -/
theorem step_of_opcode (hs : s.state = .running) (hpc : s.pc.toNat ≤ 253) (m : Mnemonic)
    (hop : s.mem.read s.pc.toNat = m.opcode) :
    step s = exec (m.withOperands (s.mem.read (s.pc.toNat + 1)) (s.mem.read (s.pc.toNat + 2))) s := by
  apply step_of_ok hs
  simp only [fetchDecode_eq_ok_iff, withOperands_mnemonic]
  exact ⟨hpc, hop, trivial⟩

/-- Where the byte at pc is no mnemonic's opcode, the step takes UnknownOpcode with that byte (R94). -/
theorem step_of_not_opcode (hs : s.state = .running) (hpc : s.pc.toNat ≤ 253)
    (hop : ∀ m : Mnemonic, s.mem.read s.pc.toNat ≠ m.opcode) :
    step s = .next (s.takeFault .unknownOpcode (s.mem.read s.pc.toNat)) := by
  rcases fetchDecode_cases s with ⟨hout, -⟩ | ⟨-, -, e⟩ | ⟨-, m, hm, -⟩
  · omega
  · exact step_of_error hs e
  · exact absurd hm (hop m)

/-- Settles O24: each of the six clauses is `step_of_opcode` at its mnemonic, whose arm of `exec` is the row's handler; a byte
outside the opcode column is no mnemonic's opcode. -/
theorem dispatchSelectsTheRowsHandler : Obligations.DispatchSelectsTheRowsHandler := by
  intro s hs hpc
  refine ⟨step_of_opcode hs hpc .hlt, step_of_opcode hs hpc .ldi, step_of_opcode hs hpc .prn, step_of_opcode hs hpc .mul,
    step_of_opcode hs hpc .push, step_of_opcode hs hpc .pop, fun hnot => ?_⟩
  exact step_of_not_opcode hs hpc fun m hm => hnot (hm ▸ opcode_mem m)

end Sys2Proof.Machine
end

section
/-! PROOFS. R120 to R123: the ALU checks its two register indices in order, refuses the operations it does not implement, and of the
others writes the result to register_a alone. -/

namespace Sys2Proof.Machine

variable {op : AluOp} {ra rb : Byte} {r q : Fin 8}

theorem regOperand_of_le {a : Byte} (h : 8 ≤ a.toNat) :
    regOperand a = .error (.fault .registerIndexOutOfRange a) := by
  rcases regOperand_cases a with ⟨p, hp, -⟩ | ⟨-, e⟩
  · have hp8 := p.isLt
    omega
  · exact e

/-- register_a is checked first, whatever register_b and the operation are. -/
theorem alu_of_le_left (u : UnwrittenRead) (op : AluOp) (h : 8 ≤ ra.toNat) (rb : Byte) (s : State) :
    alu u op ra rb s = .error (.fault .registerIndexOutOfRange ra) := by
  rw [alu, regOperand_of_le h, handler_error_bind]

/-- register_b is checked next, before the operation. -/
theorem alu_of_le_right (u : UnwrittenRead) (op : AluOp) (ha : ra.toNat = r.val) (hb : 8 ≤ rb.toNat) (s : State) :
    alu u op ra rb s = .error (.fault .registerIndexOutOfRange rb) := by
  rw [alu, regOperand_of_eq ha, handler_ok_bind, regOperand_of_le hb, handler_error_bind]

/-- With both indices in range, an operation the ALU does not implement raises. -/
theorem alu_unsupported (u : UnwrittenRead) (hop : op.compute = none) (ha : ra.toNat = r.val) (hb : rb.toNat = q.val)
    (s : State) : alu u op ra rb s = .error (.fault .unsupportedALUOperation 0) := by
  simp [alu, regOperand_of_eq ha, regOperand_of_eq hb, hop]

/-- An implemented operation changes register_a alone of what an observer sees (the written set is not spoken of); the
result is stated as the number register_a comes to hold. -/
theorem alu_result_and_frame {f : Byte → Byte → Byte} (hop : op.compute = some f) (ha : ra.toNat = r.val)
    (hb : rb.toNat = q.val) {s : State} {n : Nat} (hn : (f (s.reg r) (s.reg q)).toNat = n) :
    ∃ t, alu .draw op ra rb s = .ok t ∧ (t.reg r).toNat = n ∧
      (∀ p, p ≠ r → t.reg p = s.reg p) ∧ t.mem = s.mem ∧ t.pc = s.pc ∧ t.out = s.out ∧
      t.state = s.state ∧ t.fault = s.fault ∧ t.modelFault = s.modelFault := by
  refine ⟨_, alu_ok hop ha hb s, ?_, fun p hp => s.reg_setReg_other r p _ hp.symm, ?_⟩
  · rw [State.reg_setReg_same, hn]
  · simp only [State.setReg_mem, State.setReg_pc, State.setReg_out, State.setReg_state, State.setReg_fault,
      State.setReg_modelFault, and_self]

/-- Settles O11: MUL and ADD are `alu_result_and_frame` at their operation on bytes, which is the product or the sum modulo 2^8;
each refusal is the ALU's equation for the check that fails. -/
theorem aluWritesOnlyRegisterA : Obligations.AluWritesOnlyRegisterA := by
  intro ra rb s
  refine ⟨fun r q ha hb => ⟨?mul, ?add, ?other⟩, fun ha op => alu_of_le_left .draw op ha rb s, fun ha hb op => ?_⟩
  case mul => exact alu_result_and_frame rfl ha hb (BitVec.toNat_mul ..)
  case add => exact alu_result_and_frame rfl ha hb (BitVec.toNat_add ..)
  case other => exact fun name => alu_unsupported .draw rfl ha hb s
  · exact alu_of_le_right (r := ⟨ra.toNat, ha⟩) .draw op rfl hb s

end Sys2Proof.Machine
end

section
/-! PROOFS. R130: LDI writes its immediate to the register its first operand names and changes nothing else but pc, or faults. -/

namespace Sys2Proof.Machine

variable {a : Byte} {r : Fin 8}

/-- Where `a` names a register, LDI answers the state with that register written and pc past the instruction. -/
theorem exec_ldi_of_eq (ha : a.toNat = r.val) (imm : Byte) (s : State) :
    exec (.ldi a imm) s = .next ((s.setReg r imm).setPc (s.pc + 3)) := by
  rw [exec_ldi, handleLdi_ok ha, complete_ok, if_neg (by decide)]
  rfl

/-- Where `a` names no register, LDI takes the index fault from the state before it. -/
theorem exec_ldi_of_le (ha : 8 ≤ a.toNat) (imm : Byte) (s : State) :
    exec (.ldi a imm) s = .next (s.takeFault .registerIndexOutOfRange a) := by
  rw [exec_ldi, handleLdi, regOperand_of_le ha, handler_error_bind, complete_error, raiseFrom_fault]

/-- The written set after a register write, as one Boolean: the register written joins it, and R7 is never a member (R36). -/
theorem State.written_setReg_eq_or (s : State) (r : Fin 8) (v : Byte) (k : Fin 7) :
    (s.setReg r v).written[k] = (decide (k.val = r.val) || s.written[k]) := by
  rw [Fin.getElem_fin, State.written_setReg, Fin.getElem_fin]
  by_cases h : k.val = r.val
  · rw [if_pos h.symm, decide_eq_true h, Bool.true_or]
  · rw [if_neg (Ne.symm h), decide_eq_false h, Bool.false_or]

/-- Settles O9: with an index in range the next state is `setReg` then `setPc` (`exec_ldi_of_eq`), and each clause of the effect
and frame is a law of these two updates; otherwise the index check raises. -/
theorem ldiLoadsItsImmediate : Obligations.LdiLoadsItsImmediate := by
  intro a imm s
  refine ⟨decode_opcode .ldi a imm, rfl, fun r ha => ⟨_, exec_ldi_of_eq ha imm s, ?_⟩, fun ha => exec_ldi_of_le ha imm s⟩
  simp only [State.setPc_reg, State.setPc_mem, State.setPc_pc, State.setPc_out, State.setPc_state, State.setPc_fault,
    State.setPc_modelFault, State.setPc_written, State.setReg_mem, State.setReg_out, State.setReg_state,
    State.setReg_fault, State.setReg_modelFault, State.reg_setReg_same, implies_true, true_and]
  exact ⟨fun q hq => s.reg_setReg_other r q imm hq.symm, s.written_setReg_eq_or r imm⟩

end Sys2Proof.Machine
end

section
/-! PROOFS. R79: the encoding of a program is read back instruction by instruction, and whatever is read was an encoding. -/

namespace Sys2Proof

/-- An instruction is its mnemonic applied to its own operand bytes, whatever follows them. -/
theorem withOperands_operandBytes (i : Instr) (later : List Byte) :
    i.mnemonic.withOperands ((i.operandBytes ++ later).getD 0 0) ((i.operandBytes ++ later).getD 1 0) = i := by
  cases i <;> rfl

/-- Operand bytes taken from the front of a stream, put back before what was left, give the stream again. -/
theorem operandBytes_withOperands {m : Mnemonic} {rest : List Byte} (h : m.arity ≤ rest.length) :
    (m.withOperands (rest.getD 0 0) (rest.getD 1 0)).operandBytes ++ rest.drop m.arity = rest := by
  cases m with
  | hlt => rfl
  | prn | push | pop =>
    match rest, h with
    | _ :: _, _ => rfl
  | ldi | mul =>
    match rest, h with
    | _ :: _ :: _, _ => rfl

/-- The first instruction of an encoding followed by other bytes is the one encoded, and those bytes are left. -/
theorem decodeStream_encode (i : Instr) (later : List Byte) : decodeStream (encode i ++ later) = .ok (i, later) := by
  obtain ⟨f, hrow⟩ := lookupOpcode_opcode i.mnemonic
  have hdrop : (i.operandBytes ++ later).drop i.mnemonic.arity = later :=
    List.drop_left' (operandBytes_length i)
  have hlen : ¬ (i.operandBytes ++ later).length < i.mnemonic.arity := by
    simp only [List.length_append, operandBytes_length]
    omega
  simp only [encode, List.cons_append, decodeStream, hrow, if_neg hlen, withOperands_operandBytes, hdrop]

/-- What a stream's first instruction was read from is its encoding. -/
theorem encode_of_decodeStream {bytes later : List Byte} {i : Instr} (h : decodeStream bytes = .ok (i, later)) :
    encode i ++ later = bytes := by
  cases bytes with
  | nil => cases h
  | cons op rest =>
    cases hrow : lookupOpcode op with
    | none => simp [decodeStream, hrow] at h
    | some row =>
      obtain ⟨hop, harity⟩ := lookupOpcode_some hrow
      by_cases hlen : rest.length < row.arity
      · simp [decodeStream, hrow, hlen] at h
      · simp only [decodeStream, hrow, if_neg hlen, Except.ok.injEq, Prod.mk.injEq] at h
        obtain ⟨rfl, rfl⟩ := h
        rw [harity] at hlen ⊢
        rw [encode, Machine.withOperands_mnemonic, ← hop, List.cons_append, operandBytes_withOperands (Nat.le_of_not_lt hlen)]

/-- One instruction more takes one unit of fuel more. -/
theorem decodeUpTo_encode {fuel : Nat} {later : List Byte} {is : List Instr} (h : decodeUpTo fuel later = .ok is)
    (i : Instr) : decodeUpTo (fuel + 1) (encode i ++ later) = .ok (i :: is) := by
  have hfirst : decodeStream (i.mnemonic.opcode :: (i.operandBytes ++ later)) = .ok (i, later) :=
    decodeStream_encode i later
  simp only [encode, List.cons_append, decodeUpTo, hfirst, h]

/-- Every fuel of at least the encoding's length reads a program back. -/
theorem decodeUpTo_encodeProgram (is : List Instr) :
    ∀ fuel, (encodeProgram is).length ≤ fuel → decodeUpTo fuel (encodeProgram is) = .ok is := by
  induction is with
  | nil => intro fuel _; cases fuel <;> rfl
  | cons i is ih =>
    intro fuel hfuel
    simp only [encodeProgram, encode, List.length_append, List.length_cons] at hfuel
    obtain ⟨fuel, rfl⟩ : ∃ n, fuel = n + 1 := ⟨fuel - 1, by omega⟩
    exact decodeUpTo_encode (ih fuel (by omega)) i

/-- Whatever the fuel, the instructions read encode to the bytes they were read from. -/
theorem encodeProgram_of_decodeUpTo {fuel : Nat} {bytes : List Byte} {is : List Instr}
    (h : decodeUpTo fuel bytes = .ok is) : encodeProgram is = bytes := by
  induction fuel generalizing bytes is with
  | zero =>
    cases bytes with
    | nil => cases h; rfl
    | cons op rest => cases h
  | succ fuel ih =>
    cases bytes with
    | nil => cases h; rfl
    | cons op rest =>
      cases hfirst : decodeStream (op :: rest) with
      | error e => simp [decodeUpTo, hfirst] at h
      | ok p =>
        obtain ⟨i, later⟩ := p
        cases hlater : decodeUpTo fuel later with
        | error e => simp [decodeUpTo, hfirst, hlater] at h
        | ok js =>
          simp only [decodeUpTo, hfirst, hlater, Except.ok.injEq] at h
          subst h
          rw [encodeProgram, ih hlater, encode_of_decodeStream hfirst]

/-- Settles O4, by induction on the program with the fuel general: `decodeStream_encode` reads off one encoding. -/
theorem programBytesDecodeBack : Obligations.ProgramBytesDecodeBack :=
  fun is => decodeUpTo_encodeProgram is _ (Nat.le_refl _)

/-- Settles O5, by induction on the fuel: `encode_of_decodeStream` gives back the bytes of each instruction read. -/
theorem decodedProgramsEncodeBack : Obligations.DecodedProgramsEncodeBack :=
  fun _ _ h => encodeProgram_of_decodeUpTo h

end Sys2Proof
end

section
/-! PROOFS. What each instruction answers, said once: an equation of `exec` for each way through its handler, and the relation
`Executes` that lists these ways, for proofs by cases. -/

namespace Sys2Proof.Machine

/-- What PUSH of register `r` makes of registers and memory: SP decremented, then the register stored there (R110). -/
def State.pushed (s : State) (r : Fin 8) : State :=
  (s.setSp (s.sp - 1)).memWrite (s.sp - 1) ((s.setSp (s.sp - 1)).reg r)

/-- What POP into register `r` makes of the registers: the byte at SP, then the incremented SP (R112). -/
def State.popped (s : State) (r : Fin 8) : State :=
  (s.setReg r (s.memRead s.sp)).setSp (BitVec.ofNat 8 (poppedSp s r))

/-- The operand bytes of an instruction that are register operands, in the order they are checked (R73, R147). -/
def registerOperands : Instr → List Byte
  | .hlt => []
  | .ldi a _ => [a]
  | .prn a => [a]
  | .mul a b => [a, b]
  | .push a => [a]
  | .pop a => [a]

/-- The first register operand that names no register (R143). -/
def firstBadOperand (i : Instr) : Option Byte := (registerOperands i).find? fun a => decide (8 ≤ a.toNat)

/-- The ways an instruction executes from a state, each with the state it answers: one way to complete for each instruction, the
index fault, and the stack's two ends. -/
inductive Executes : Instr → State → State → Prop where
  | hlt {s : State} : Executes .hlt s { s with state := .halted }
  | ldi {a imm s} {r : Fin 8} (ha : a.toNat = r.val) : Executes (.ldi a imm) s ((s.setReg r imm).setPc (s.pc + 3))
  | prn {a s} {r : Fin 8} (ha : a.toNat = r.val) : Executes (.prn a) s ((s.emit (s.reg r)).setPc (s.pc + 2))
  | mul {a b s} {r q : Fin 8} (ha : a.toNat = r.val) (hb : b.toNat = q.val) :
      Executes (.mul a b) s ((s.setReg r (s.reg r * s.reg q)).setPc (s.pc + 3))
  | push {a s} {r : Fin 8} (ha : a.toNat = r.val) (hsp : s.sp ≠ 0) :
      Executes (.push a) s ((s.pushed r).setPc (s.pc + 2))
  | pop {a s} {r : Fin 8} (ha : a.toNat = r.val) (hsp : poppedSp s r ≤ 255) :
      Executes (.pop a) s ((s.popped r).setPc (s.pc + 2))
  | badIndex {i s a} (hbad : firstBadOperand i = some a) : Executes i s (s.takeFault .registerIndexOutOfRange a)
  | pushBottom {a s} {r : Fin 8} (ha : a.toNat = r.val) (hsp : s.sp = 0) :
      Executes (.push a) s (s.takeFault .stackBoundaryViolation s.sp)
  | popTop {a s} {r : Fin 8} (ha : a.toNat = r.val) (hsp : 255 < poppedSp s r) :
      Executes (.pop a) s (s.takeFault .stackBoundaryViolation s.sp)

variable {a b : Byte} {r q : Fin 8} {s t : State}

theorem exec_prn_of_eq (ha : a.toNat = r.val) (s : State) :
    exec (.prn a) s = .next ((s.emit (s.reg r)).setPc (s.pc + 2)) := by
  rw [exec_prn, handlePrn_ok ha, complete_ok, if_neg (by decide)]
  rfl

theorem exec_mul_of_eq (ha : a.toNat = r.val) (hb : b.toNat = q.val) (s : State) :
    exec (.mul a b) s = .next ((s.setReg r (s.reg r * s.reg q)).setPc (s.pc + 3)) := by
  rw [exec_mul, handleMul, alu_ok (f := fun x y => x * y) rfl ha hb, complete_ok, if_neg (by decide)]
  rfl

theorem exec_push_of_eq (ha : a.toNat = r.val) (hsp : s.sp ≠ 0) :
    exec (.push a) s = .next ((s.pushed r).setPc (s.pc + 2)) := by
  rw [exec_push, handlePush_ok ha hsp, complete_ok, if_neg (by decide)]
  rfl

theorem exec_pop_of_eq (ha : a.toNat = r.val) (hsp : poppedSp s r ≤ 255) :
    exec (.pop a) s = .next ((s.popped r).setPc (s.pc + 2)) := by
  rw [exec_pop, handlePop_ok ha hsp, complete_ok, if_neg (by decide)]
  rfl

theorem exec_prn_of_le (ha : 8 ≤ a.toNat) (s : State) :
    exec (.prn a) s = .next (s.takeFault .registerIndexOutOfRange a) := by
  rw [exec_prn, handlePrn, regOperand_of_le ha, handler_error_bind, complete_error, raiseFrom_fault]

theorem exec_mul_of_le_left (ha : 8 ≤ a.toNat) (b : Byte) (s : State) :
    exec (.mul a b) s = .next (s.takeFault .registerIndexOutOfRange a) := by
  rw [exec_mul, handleMul, alu_of_le_left .draw .mul ha, complete_error, raiseFrom_fault]

theorem exec_mul_of_le_right (ha : a.toNat < 8) (hb : 8 ≤ b.toNat) (s : State) :
    exec (.mul a b) s = .next (s.takeFault .registerIndexOutOfRange b) := by
  rw [exec_mul, handleMul, alu_of_le_right (r := ⟨a.toNat, ha⟩) .draw .mul rfl hb, complete_error, raiseFrom_fault]

theorem exec_push_of_le (ha : 8 ≤ a.toNat) (s : State) :
    exec (.push a) s = .next (s.takeFault .registerIndexOutOfRange a) := by
  rw [exec_push, handlePush, regOperand_of_le ha, handler_error_bind, complete_error, raiseFrom_fault]

theorem exec_pop_of_le (ha : 8 ≤ a.toNat) (s : State) :
    exec (.pop a) s = .next (s.takeFault .registerIndexOutOfRange a) := by
  rw [exec_pop, handlePop, regOperand_of_le ha, handler_error_bind, complete_error, raiseFrom_fault]

/-- The stack's lower end, for either setting of `UNWRITTEN_READ`: it is checked before the register is read (R147). -/
theorem execPushUnder_of_bottom (u : UnwrittenRead) (ha : a.toNat = r.val) (hsp : s.sp = 0) :
    execPushUnder u a s = .next (s.takeFault .stackBoundaryViolation s.sp) := by
  rw [execPushUnder, handlePush, regOperand_of_eq ha, handler_ok_bind, if_pos hsp, complete_error, raiseFrom_fault]

/-- At SP = 0 that is the byte 0 recorded. -/
theorem execPushUnder_of_sp_zero (u : UnwrittenRead) (ha : a.toNat < 8) (hsp : s.sp = 0) :
    execPushUnder u a s = .next (s.takeFault .stackBoundaryViolation 0) := by
  have hbottom := execPushUnder_of_bottom u (r := ⟨a.toNat, ha⟩) rfl hsp
  rwa [hsp] at hbottom

theorem exec_pop_of_top (ha : a.toNat = r.val) (hsp : 255 < poppedSp s r) :
    exec (.pop a) s = .next (s.takeFault .stackBoundaryViolation s.sp) := by
  rw [exec_pop, handlePop, regOperand_of_eq ha, handler_ok_bind, if_pos hsp, complete_error, raiseFrom_fault]

theorem le_of_firstBadOperand {i : Instr} (h : firstBadOperand i = some a) : 8 ≤ a.toNat := by
  simpa using List.find?_some h

/-- One register operand is the first bad one exactly if it is bad. -/
theorem find_bad_singleton {c : Byte} :
    [c].find? (fun a => decide (8 ≤ a.toNat)) = some a ↔ 8 ≤ c.toNat ∧ c = a := by
  by_cases h : 8 ≤ c.toNat <;> simp [h]

/-- The first bad register operand is taken as the index fault, whatever the instruction. -/
theorem exec_of_firstBadOperand {i : Instr} (h : firstBadOperand i = some a) (s : State) :
    exec i s = .next (s.takeFault .registerIndexOutOfRange a) := by
  cases i with
  | hlt => cases h
  | ldi c imm => obtain ⟨hc, rfl⟩ := find_bad_singleton.mp h; exact exec_ldi_of_le hc imm s
  | prn c => obtain ⟨hc, rfl⟩ := find_bad_singleton.mp h; exact exec_prn_of_le hc s
  | push c => obtain ⟨hc, rfl⟩ := find_bad_singleton.mp h; exact exec_push_of_le hc s
  | pop c => obtain ⟨hc, rfl⟩ := find_bad_singleton.mp h; exact exec_pop_of_le hc s
  | mul c d =>
    rw [firstBadOperand, registerOperands, List.find?_cons] at h
    by_cases hc : 8 ≤ c.toNat
    · simp only [hc, decide_true, Option.some.injEq] at h
      exact h ▸ exec_mul_of_le_left hc d s
    · simp only [hc, decide_false] at h
      obtain ⟨hd, rfl⟩ := find_bad_singleton.mp h
      exact exec_mul_of_le_right (Nat.lt_of_not_le hc) hd s

/-- A byte names a register or is a bad index. -/
theorem names_or_le (a : Byte) : (∃ r : Fin 8, a.toNat = r.val) ∨ 8 ≤ a.toNat := by
  rcases regOperand_cases a with ⟨r, h, -⟩ | ⟨h, -⟩
  · exact .inl ⟨r, h⟩
  · exact .inr h

/-- Each way listed is what `exec` answers. -/
theorem Executes.exec_eq {i : Instr} (h : Executes i s t) : exec i s = .next t := by
  cases h with
  | hlt => rfl
  | ldi ha => exact exec_ldi_of_eq ha _ s
  | prn ha => exact exec_prn_of_eq ha s
  | mul ha hb => exact exec_mul_of_eq ha hb s
  | push ha hsp => exact exec_push_of_eq ha hsp
  | pop ha hsp => exact exec_pop_of_eq ha hsp
  | badIndex hbad => exact exec_of_firstBadOperand hbad s
  | pushBottom ha hsp => exact execPushUnder_of_bottom .draw ha hsp
  | popTop ha hsp => exact exec_pop_of_top ha hsp

/-- The ways listed are all there are: every instruction takes one of them from every state. -/
theorem exists_executes (i : Instr) (s : State) : ∃ t, Executes i s t := by
  cases i with
  | hlt => exact ⟨_, .hlt⟩
  | ldi a imm =>
    rcases names_or_le a with ⟨r, ha⟩ | ha
    · exact ⟨_, .ldi ha⟩
    · exact ⟨_, .badIndex (find_bad_singleton.mpr ⟨ha, rfl⟩)⟩
  | prn a =>
    rcases names_or_le a with ⟨r, ha⟩ | ha
    · exact ⟨_, .prn ha⟩
    · exact ⟨_, .badIndex (find_bad_singleton.mpr ⟨ha, rfl⟩)⟩
  | mul a b =>
    rcases names_or_le a with ⟨r, ha⟩ | ha
    · rcases names_or_le b with ⟨q, hb⟩ | hb
      · exact ⟨_, .mul ha hb⟩
      · have ha' : ¬ 8 ≤ a.toNat := by omega
        exact ⟨_, .badIndex (a := b) (by simp [firstBadOperand, registerOperands, ha', hb])⟩
    · exact ⟨_, .badIndex (a := a) (by simp [firstBadOperand, registerOperands, ha])⟩
  | push a =>
    rcases names_or_le a with ⟨r, ha⟩ | ha
    · by_cases hsp : s.sp = 0
      · exact ⟨_, .pushBottom ha hsp⟩
      · exact ⟨_, .push ha hsp⟩
    · exact ⟨_, .badIndex (find_bad_singleton.mpr ⟨ha, rfl⟩)⟩
  | pop a =>
    rcases names_or_le a with ⟨r, ha⟩ | ha
    · by_cases hsp : poppedSp s r ≤ 255
      · exact ⟨_, .pop ha hsp⟩
      · exact ⟨_, .popTop ha (Nat.lt_of_not_le hsp)⟩
    · exact ⟨_, .badIndex (find_bad_singleton.mpr ⟨ha, rfl⟩)⟩

/-- `Executes` is `exec`. -/
theorem exec_eq_next_iff {i : Instr} : exec i s = .next t ↔ Executes i s t := by
  refine ⟨fun h => ?_, Executes.exec_eq⟩
  obtain ⟨t', ht'⟩ := exists_executes i s
  rw [ht'.exec_eq, Host.Outcome.next.injEq] at h
  exact h ▸ ht'

/-- The fault an instruction itself can take and its info byte: a bad index, or SP where the stack would leave memory (R140). -/
abbrev InstrFault (s : State) (k : FaultKind) (v : Byte) : Prop :=
  (k = .registerIndexOutOfRange ∧ 8 ≤ v.toNat) ∨ (k = .stackBoundaryViolation ∧ v = s.sp)

theorem InstrFault.ne_unsupported {k : FaultKind} {v : Byte} (h : InstrFault s k v) : k ≠ .unsupportedALUOperation := by
  rcases h with ⟨rfl, -⟩ | ⟨rfl, -⟩ <;> nofun

/-- The three ends of an instruction: HLT halts and keeps the rest; any other moves pc past itself and keeps engine state and
record; or a fault is taken from the state before it. -/
theorem Executes.three_ends {i : Instr} (h : Executes i s t) :
    (i = .hlt ∧ t = { s with state := .halted }) ∨
    (i ≠ .hlt ∧ t.pc = s.pc + BitVec.ofNat 9 i.mnemonic.width ∧ t.state = s.state ∧ t.fault = s.fault ∧
      t.modelFault = s.modelFault) ∨
    ∃ k v, InstrFault s k v ∧ t = s.takeFault k v := by
  cases h with
  | hlt => exact .inl ⟨rfl, rfl⟩
  | ldi | prn | mul | push | pop => exact .inr (.inl ⟨nofun, rfl, rfl, rfl, rfl⟩)
  | badIndex hbad => exact .inr (.inr ⟨_, _, .inl ⟨rfl, le_of_firstBadOperand hbad⟩, rfl⟩)
  | pushBottom | popTop => exact .inr (.inr ⟨_, _, .inr ⟨rfl, rfl⟩, rfl⟩)

end Sys2Proof.Machine
end

section
/-! PROOFS. What one step does, by cases, and from it the invariant of the engine. -/

namespace Sys2Proof.Machine

/-- The fault a step takes before it has an instruction, and its info byte: a fetch out of range, or an opcode with no row. -/
abbrev FetchFault (s : State) (k : FaultKind) (v : Byte) : Prop :=
  (k = .fetchOutOfRange ∧ 253 < s.pc.toNat ∧ v = 0) ∨
  (k = .unknownOpcode ∧ s.pc.toNat ≤ 253 ∧ v = s.mem.read s.pc.toNat ∧ lookupOpcode v = none)

/-- The ways an engine steps: not at all once ended; a fault before there is an instruction; or the instruction at pc. -/
inductive Steps (s : State) : State → Prop where
  | ended (hs : s.Ended) : Steps s s
  | fetchFault {k v} (hs : s.state = .running) (hf : FetchFault s k v) : Steps s (s.takeFault k v)
  | executes {i t} (hs : s.state = .running) (hi : fetchDecode s = .ok i) (he : Executes i s t) : Steps s t

variable {s t u : State}

theorem step_of_ended (hs : s.Ended) : step s = .next s := by
  cases h : s.state with
  | running => exact absurd h hs
  | halted | faulted => simp only [step, h]

/-- Whatever the state, `step` answers a state, in one of these ways. -/
theorem exists_steps (s : State) : ∃ t, step s = .next t ∧ Steps s t := by
  by_cases hs : s.state = .running
  · rcases fetchDecode_cases s with ⟨hpc, e⟩ | ⟨hpc, hop, e⟩ | ⟨-, m, -, e⟩
    · exact ⟨_, step_of_error hs e, .fetchFault hs (.inl ⟨rfl, hpc, rfl⟩)⟩
    · exact ⟨_, step_of_error hs e, .fetchFault hs (.inr ⟨rfl, hpc, rfl, hop⟩)⟩
    · obtain ⟨t, ht⟩ := exists_executes _ s
      exact ⟨t, (step_of_ok hs e).trans ht.exec_eq, .executes hs e ht⟩
  · exact ⟨s, step_of_ended hs, .ended hs⟩

theorem steps_of_step (h : step s = .next t) : Steps s t := by
  obtain ⟨t', e, ht'⟩ := exists_steps s
  rw [e, Host.Outcome.next.injEq] at h
  exact h ▸ ht'

theorem fetchDecode_range {i : Instr} (h : fetchDecode s = .ok i) : s.pc.toNat ≤ 253 :=
  (fetchDecode_eq_ok_iff.mp h).1

theorem FetchFault.ne_unsupported {k : FaultKind} {v : Byte} (h : FetchFault s k v) : k ≠ .unsupportedALUOperation := by
  rcases h with ⟨rfl, -⟩ | ⟨rfl, -⟩ <;> nofun

/-- A fault taken before there is an instruction leaves a true record. -/
theorem faultExplained_of_fetchFault {k : FaultKind} {v : Byte} (h : FetchFault s k v) :
    (s.takeFault k v).FaultExplained := by
  rcases h with ⟨rfl, hpc, rfl⟩ | ⟨rfl, hpc, rfl, hop⟩
  · exact ⟨rfl, .inr (.inr (.inr ⟨rfl, hpc, rfl⟩))⟩
  · exact ⟨rfl, .inl ⟨rfl, hpc, rfl, hop⟩⟩

/-- A fault taken by an instruction that was fetched leaves a true record. -/
theorem faultExplained_of_instrFault {k : FaultKind} {v : Byte} (hpc : s.pc.toNat ≤ 253) (h : InstrFault s k v) :
    (s.takeFault k v).FaultExplained := by
  rcases h with ⟨rfl, hv⟩ | ⟨rfl, rfl⟩
  · exact ⟨rfl, .inr (.inl ⟨rfl, hpc, hv⟩)⟩
  · exact ⟨rfl, .inr (.inr (.inl ⟨rfl, hpc, rfl⟩))⟩

theorem State.Inv.zero_record_of_running (h : s.Inv) (hs : s.state = .running) :
    s.fault = { cause := 0, pc := 0, info := 0 } ∧ s.modelFault = none := by
  obtain ⟨-, -, -, hnone, -, -⟩ := h
  exact hnone (by rw [hs]; decide)

/-- A fault with a true record, taken by a Running engine, keeps the invariant. -/
theorem State.Inv.takeFault (h : s.Inv) (hs : s.state = .running) {k : FaultKind} {v : Byte}
    (hrecord : (s.takeFault k v).FaultExplained) : (s.takeFault k v).Inv := by
  have hmodel : s.modelFault = none := (h.zero_record_of_running hs).2
  obtain ⟨hwf, hpc, hout, -, -, -⟩ := h
  refine ⟨hwf, hpc, hout, fun hne => absurd rfl hne, fun _ _ => hrecord, fun q hq => ?_⟩
  rw [State.takeFault_modelFault, hmodel] at hq
  cases hq

/-- The model-only fault of an unwritten register, taken by a Running engine that can fetch, keeps the invariant. -/
theorem State.Inv.takeUnwritten (h : s.Inv) (hs : s.state = .running) (hrange : s.pc.toNat ≤ 253) {q : Fin 7}
    (hq : s.written[q] = false) : (s.takeUnwritten q).Inv := by
  have hzero : s.fault = { cause := 0, pc := 0, info := 0 } := (h.zero_record_of_running hs).1
  obtain ⟨hwf, hpc, hout, -, -, -⟩ := h
  refine ⟨hwf, hpc, hout, fun hne => absurd rfl hne, nofun, fun p hp => ?_⟩
  cases hp
  exact ⟨by rw [State.takeUnwritten_fault, hzero, State.takeUnwritten_pc], hrange, hq⟩

/-- From a Running engine that can fetch, canonical memory, an output grown by no more than half of the width, and pc moved by
the width keep the invariant. -/
theorem State.Inv.advance (h : s.Inv) (hs : s.state = .running) (hrange : s.pc.toNat ≤ 253) (m : Mnemonic)
    (hwf : u.mem.wf) (hout : 2 * u.out.length ≤ 2 * s.out.length + m.width) (hstate : u.state = s.state)
    (hfault : u.fault = s.fault) (hmodel : u.modelFault = s.modelFault) :
    (u.setPc (s.pc + BitVec.ofNat 9 m.width)).Inv := by
  obtain ⟨hzero, hnone⟩ := h.zero_record_of_running hs
  obtain ⟨-, -, hlen, -, -, -⟩ := h
  have hpc : (s.pc + BitVec.ofNat 9 m.width).toNat = s.pc.toNat + m.width := pc_advance_toNat hrange m
  have hwidth := width_bounds m
  refine ⟨hwf, ?_, ?_, fun _ => ⟨hfault.trans hzero, hmodel.trans hnone⟩, fun hf => ?_, fun q hq => ?_⟩
  · rw [State.setPc_pc, hpc]; omega
  · rw [State.setPc_pc, State.setPc_out, hpc]; omega
  · rw [State.setPc_state, hstate, hs] at hf; cases hf
  · rw [State.setPc_modelFault, hmodel, hnone] at hq; cases hq

/-- Halting a Running engine keeps the invariant. -/
theorem State.Inv.halt (h : s.Inv) (hs : s.state = .running) : ({ s with state := .halted } : State).Inv := by
  have hzero := h.zero_record_of_running hs
  obtain ⟨hwf, hpc, hout, -, -, hmodel⟩ := h
  exact ⟨hwf, hpc, hout, fun _ => hzero, nofun, hmodel⟩

/-- Every instruction of a Running engine that can fetch keeps the invariant. -/
theorem State.Inv.executes {i : Instr} (h : s.Inv) (hs : s.state = .running) (hrange : s.pc.toNat ≤ 253)
    (he : Executes i s t) : t.Inv := by
  have ⟨hwf, _⟩ := h
  cases he with
  | hlt => exact h.halt hs
  | ldi ha => exact h.advance hs hrange .ldi hwf (Nat.le_add_right ..) rfl rfl rfl
  | mul ha hb => exact h.advance hs hrange .mul hwf (Nat.le_add_right ..) rfl rfl rfl
  | pop ha hsp => exact h.advance hs hrange .pop hwf (Nat.le_add_right ..) rfl rfl rfl
  | push ha hsp => exact h.advance hs hrange .push (Memory.wf_write_addr hwf _ _) (Nat.le_add_right ..) rfl rfl rfl
  | prn ha =>
    refine h.advance hs hrange .prn hwf ?_ rfl rfl rfl
    rw [State.emit_out, List.length_append, Nat.mul_add]
    exact Nat.le_refl _
  | badIndex hbad =>
    exact h.takeFault hs (faultExplained_of_instrFault hrange (.inl ⟨rfl, le_of_firstBadOperand hbad⟩))
  | pushBottom | popTop => exact h.takeFault hs (faultExplained_of_instrFault hrange (.inr ⟨rfl, rfl⟩))

/-- Every step keeps the invariant. -/
theorem State.Inv.steps (h : s.Inv) (hst : Steps s t) : t.Inv := by
  cases hst with
  | ended _ => exact h
  | fetchFault hs hf => exact h.takeFault hs (faultExplained_of_fetchFault hf)
  | executes hs hi he => exact h.executes hs (fetchDecode_range hi) he

/-- No instruction of the machine itself takes the model-only fault. -/
theorem Executes.modelFault_eq {i : Instr} (h : Executes i s t) : t.modelFault = s.modelFault := by
  rcases h.three_ends with ⟨-, rfl⟩ | ⟨-, -, -, -, hmodel⟩ | ⟨k, v, -, rfl⟩
  · rfl
  · exact hmodel
  · rfl

/-- No step of the machine itself takes the model-only fault. -/
theorem Steps.modelFault_eq (h : Steps s t) : t.modelFault = s.modelFault := by
  cases h with
  | ended _ => rfl
  | fetchFault _ _ => rfl
  | executes _ _ he => exact he.modelFault_eq

/-- Settles O40: the machine's step by its cases (`State.Inv.steps`); the checking machine adds the model-only fault alone. -/
theorem stepKeepsTheInvariant : Obligations.StepKeepsTheInvariant := by
  intro s t h
  refine ⟨fun hst => ⟨h.steps (steps_of_step hst), (steps_of_step hst).modelFault_eq⟩, fun u hst => ?_⟩
  rcases stepUnder_cases u s with e | ⟨-, hs, hrange, q, hq, e⟩
  · exact h.steps (steps_of_step (e.symm.trans hst))
  · rw [e, Host.Outcome.next.injEq] at hst
    exact hst ▸ h.takeUnwritten hs hrange hq

end Sys2Proof.Machine
end

section
/-! PROOFS. The checking machine (R148): it takes the model-only fault at a read of an unwritten register, after the hardware
faults, and else does what the machine does. -/

namespace Sys2Proof.Machine

variable {a b : Byte} {s : State}

/-! ### Reads under the setting `fault` -/

/-- A register is known, or is one of R0..R6 and unwritten. -/
theorem State.known_or_unwritten (s : State) (r : Fin 8) :
    s.Known r ∨ ∃ q : Fin 7, r.val = q.val ∧ s.written[q] = false := by
  by_cases h : ∃ q : Fin 7, r.val = q.val ∧ s.written[q] = false
  · exact .inr h
  · refine .inl fun hr => ?_
    by_contra hw
    exact h ⟨⟨r.val, hr⟩, rfl, by simpa using hw⟩

theorem readReg_of_known {r : Fin 8} (h : s.Known r) : s.readReg .fault r = .ok (s.reg r) := by
  by_cases hr : r.val < 7
  · simp [State.readReg, hr, h hr]
  · simp [State.readReg, hr]

theorem readReg_of_unwritten {r : Fin 8} {q : Fin 7} (hr : r.val = q.val) (hq : s.written[q] = false) :
    s.readReg .fault r = .error (.unwritten q) := by
  rcases State.readReg_cases .fault s r with e | ⟨-, p, hp, -, e⟩
  · have hlt : r.val < 7 := hr ▸ q.isLt
    have hw : s.written[r.val] = false := by simpa [hr] using hq
    simp [State.readReg, hlt, hw] at e
  · have hpq : p = q := Fin.ext (hp.symm.trans hr)
    rw [e, hpq]

/-- Moving SP makes no register known and none unknown. -/
theorem State.known_setSp {v : Byte} {r : Fin 8} : (s.setSp v).Known r ↔ s.Known r := Iff.rfl

theorem State.known_spIndex (s : State) : s.Known Config.spIndex := fun h => absurd h (by decide)

/-! ### PRN, PUSH and MUL under the setting `fault` -/

theorem execPrnUnder_of_unwritten {q : Fin 7} (ha : a.toNat = q.val) (hq : s.written[q] = false) :
    execPrnUnder .fault a s = .next (s.takeUnwritten q) := by
  rw [execPrnUnder, handlePrn, regOperand_of_eq (r := q.castSucc) ha, handler_ok_bind, readReg_of_unwritten rfl hq,
    handler_error_bind, complete_error, raiseFrom_unwritten]

theorem execPrnUnder_of_known {r : Fin 8} (ha : a.toNat = r.val) (hr : s.Known r) :
    execPrnUnder .fault a s = exec (.prn a) s := by
  rw [execPrnUnder, exec_prn, handlePrn_ok ha, handlePrn, regOperand_of_eq ha, handler_ok_bind, readReg_of_known hr,
    handler_ok_bind]

theorem execPushUnder_of_unwritten {q : Fin 7} (ha : a.toNat = q.val) (hsp : s.sp ≠ 0) (hq : s.written[q] = false) :
    execPushUnder .fault a s = .next (s.takeUnwritten q) := by
  have hread : (s.setSp (s.sp - 1)).readReg .fault q.castSucc = .error (.unwritten q) := readReg_of_unwritten rfl hq
  simp only [execPushUnder, handlePush, regOperand_of_eq (r := q.castSucc) ha, handler_ok_bind, if_neg hsp, hread,
    handler_error_bind, complete_error, raiseFrom_unwritten]

theorem execPushUnder_of_known {r : Fin 8} (ha : a.toNat = r.val) (hr : s.Known r) :
    execPushUnder .fault a s = exec (.push a) s := by
  by_cases hsp : s.sp = 0
  · exact (execPushUnder_of_bottom .fault ha hsp).trans (execPushUnder_of_bottom .draw ha hsp).symm
  · have hread := readReg_of_known (State.known_setSp (v := s.sp - 1).mpr hr)
    simp only [execPushUnder, exec_push, handlePush, regOperand_of_eq ha, handler_ok_bind, if_neg hsp, hread,
      State.readReg_draw]

theorem execMulUnder_of_unwritten_left {q : Fin 7} (ha : a.toNat = q.val) (hb : b.toNat < 8)
    (hq : s.written[q] = false) : execMulUnder .fault a b s = .next (s.takeUnwritten q) := by
  simp only [execMulUnder, handleMul, alu, AluOp.compute, regOperand_of_eq (r := q.castSucc) ha,
    regOperand_of_eq (r := ⟨b.toNat, hb⟩) rfl, handler_ok_bind, readReg_of_unwritten (r := q.castSucc) rfl hq,
    handler_error_bind, complete_error, raiseFrom_unwritten]

theorem execMulUnder_of_unwritten_right {p : Fin 8} {q : Fin 7} (ha : a.toNat = p.val) (hp : s.Known p)
    (hb : b.toNat = q.val) (hq : s.written[q] = false) : execMulUnder .fault a b s = .next (s.takeUnwritten q) := by
  simp only [execMulUnder, handleMul, alu, AluOp.compute, regOperand_of_eq ha, regOperand_of_eq (r := q.castSucc) hb,
    handler_ok_bind, readReg_of_known hp, readReg_of_unwritten (r := q.castSucc) rfl hq, handler_error_bind,
    complete_error, raiseFrom_unwritten]

theorem execMulUnder_of_known {p q : Fin 8} (ha : a.toNat = p.val) (hb : b.toNat = q.val) (hp : s.Known p)
    (hq : s.Known q) : execMulUnder .fault a b s = exec (.mul a b) s := by
  simp only [execMulUnder, exec_mul, handleMul, alu, AluOp.compute, regOperand_of_eq ha, regOperand_of_eq hb,
    handler_ok_bind, readReg_of_known hp, readReg_of_known hq, State.readReg_draw]

/-- operand_b's index is checked before either register is read, under both settings. -/
theorem execMulUnder_of_le_right (u : UnwrittenRead) {r : Fin 8} (ha : a.toNat = r.val) (hb : 8 ≤ b.toNat) (s : State) :
    execMulUnder u a b s = .next (s.takeFault .registerIndexOutOfRange b) := by
  rw [execMulUnder, handleMul, alu_of_le_right u .mul ha hb, complete_error, raiseFrom_fault]

/-- Settles O23: each clause is the equation of its instruction under the setting `fault`. -/
theorem unwrittenReadIsRaisedLast : Obligations.UnwrittenReadIsRaisedLast := by
  refine ⟨fun a r s ha hr => ?_, fun a r s ha hr => ?_⟩
  · have ha8 : a.toNat < 8 := ha ▸ r.castSucc.isLt
    exact ⟨execPrnUnder_of_unwritten ha hr, fun hsp => execPushUnder_of_unwritten ha hsp hr,
      execPushUnder_of_sp_zero .fault ha8, fun b hb => execMulUnder_of_unwritten_left ha hb hr,
      fun b hb => execMulUnder_of_le_right .fault (r := r.castSucc) ha hb s,
      fun b q hb hq => execMulUnder_of_unwritten_right hb hq ha hr⟩
  · exact ⟨execPrnUnder_of_known ha hr, execPushUnder_of_known ha hr,
      fun b q hb hq => execMulUnder_of_known ha hb hr hq⟩

/-! ### Which registers an instruction reads -/

/-- Every register whose value the instruction reads, on the way it takes from `s`, is known. -/
def ReadsKnown : Instr → State → Prop
  | .prn a, s => ∀ r : Fin 8, a.toNat = r.val → s.Known r
  | .push a, s => ∀ r : Fin 8, a.toNat = r.val → s.sp ≠ 0 → s.Known r
  | .mul a b, s => ∀ r q : Fin 8, a.toNat = r.val → b.toNat = q.val → s.Known r ∧ s.Known q
  | _, _ => True

/-- The register an operand byte names is only one. -/
theorem known_of_names {r : Fin 8} (ha : a.toNat = r.val) (hr : s.Known r) : ∀ q : Fin 8, a.toNat = q.val → s.Known q :=
  fun _ hq => Fin.ext (ha.symm.trans hq) ▸ hr

/-- A bad index names no register, so nothing is read through it. -/
theorem known_of_le (ha : 8 ≤ a.toNat) : ∀ r : Fin 8, a.toNat = r.val → s.Known r := by
  intro r hr
  have hlt := r.isLt
  omega

/-- The checking machine takes the model-only fault, or does what the machine does and reads known registers only. -/
theorem execUnder_fault_cases (i : Instr) (s : State) :
    (∃ q : Fin 7, s.written[q] = false ∧ execUnder .fault i s = .next (s.takeUnwritten q)) ∨
    (execUnder .fault i s = exec i s ∧ ReadsKnown i s) := by
  rcases execUnder_cases .fault i s with e | ⟨-, q, hq, e⟩
  swap
  · exact .inl ⟨q, hq, e⟩
  cases i with
  | hlt | ldi | pop => exact .inr ⟨e, trivial⟩
  | prn a =>
    rcases names_or_le a with ⟨r, ha⟩ | ha
    · rcases s.known_or_unwritten r with hr | ⟨q, hrq, hq⟩
      · exact .inr ⟨e, known_of_names ha hr⟩
      · exact .inl ⟨q, hq, execPrnUnder_of_unwritten (ha.trans hrq) hq⟩
    · exact .inr ⟨e, known_of_le ha⟩
  | push a =>
    by_cases hsp : s.sp = 0
    · exact .inr ⟨e, fun _ _ hne => absurd hsp hne⟩
    · rcases names_or_le a with ⟨r, ha⟩ | ha
      · rcases s.known_or_unwritten r with hr | ⟨q, hrq, hq⟩
        · exact .inr ⟨e, fun p hp _ => known_of_names ha hr p hp⟩
        · exact .inl ⟨q, hq, execPushUnder_of_unwritten (ha.trans hrq) hsp hq⟩
      · exact .inr ⟨e, fun p hp _ => known_of_le ha p hp⟩
  | mul a b =>
    rcases names_or_le a with ⟨r, ha⟩ | ha
    · rcases names_or_le b with ⟨p, hb⟩ | hb
      · rcases s.known_or_unwritten r with hr | ⟨q, hrq, hq⟩
        · rcases s.known_or_unwritten p with hp | ⟨q, hpq, hq⟩
          · exact .inr ⟨e, fun x y hx hy => ⟨known_of_names ha hr x hx, known_of_names hb hp y hy⟩⟩
          · exact .inl ⟨q, hq, execMulUnder_of_unwritten_right ha hr (hb.trans hpq) hq⟩
        · exact .inl ⟨q, hq, execMulUnder_of_unwritten_left (ha.trans hrq) (hb ▸ p.isLt) hq⟩
      · exact .inr ⟨e, fun x y _ hy => absurd (hy ▸ y.isLt) (Nat.not_lt.mpr hb)⟩
    · exact .inr ⟨e, fun x y hx _ => absurd (hx ▸ x.isLt) (Nat.not_lt.mpr ha)⟩

end Sys2Proof.Machine
end

section
/-! PROOFS. Two states equal but for unwritten registers (R25) stay so along every instruction that reads known registers only. -/

namespace Sys2Proof.Machine

variable {s s' t : State}

theorem SameButUnwritten.reg_eq (h : SameButUnwritten s s') {r : Fin 8} (hr : s.Known r) : s'.reg r = s.reg r := by
  obtain ⟨-, -, -, -, -, -, -, hreg⟩ := h
  exact hreg r hr

theorem SameButUnwritten.mem_eq (h : SameButUnwritten s s') : s'.mem = s.mem := by
  obtain ⟨hmem, -⟩ := h
  exact hmem

theorem SameButUnwritten.pc_eq (h : SameButUnwritten s s') : s'.pc = s.pc := by
  obtain ⟨-, hpc, -⟩ := h
  exact hpc

theorem SameButUnwritten.state_eq (h : SameButUnwritten s s') : s'.state = s.state := by
  obtain ⟨-, -, hstate, -⟩ := h
  exact hstate

theorem SameButUnwritten.sp_eq (h : SameButUnwritten s s') : s'.sp = s.sp := h.reg_eq s.known_spIndex

/-- Writing the same value to the same register makes the two states agree on it. -/
theorem SameButUnwritten.setReg (h : SameButUnwritten s s') (r : Fin 8) (v : Byte) :
    SameButUnwritten (s.setReg r v) (s'.setReg r v) := by
  obtain ⟨hmem, hpc, hstate, hfault, hout, hwritten, hmodel, hreg⟩ := h
  refine ⟨hmem, hpc, hstate, hfault, hout, by simp only [State.setReg, hwritten], hmodel, fun q hq => ?_⟩
  by_cases hrq : r = q
  · rw [← hrq, State.reg_setReg_same, State.reg_setReg_same]
  · rw [State.reg_setReg_other _ _ _ _ hrq, State.reg_setReg_other _ _ _ _ hrq]
    refine hreg q fun hlt => ?_
    have hne : ¬ r.val = q.val := fun e => hrq (Fin.ext e)
    have hw := hq hlt
    rwa [State.written_setReg s r v ⟨q.val, hlt⟩, if_neg hne] at hw

theorem SameButUnwritten.setSp (h : SameButUnwritten s s') (v : Byte) : SameButUnwritten (s.setSp v) (s'.setSp v) :=
  h.setReg Config.spIndex v

theorem SameButUnwritten.memWrite (h : SameButUnwritten s s') (a : Addr) (v : Byte) :
    SameButUnwritten (s.memWrite a v) (s'.memWrite a v) := by
  obtain ⟨hmem, hrest⟩ := h
  exact ⟨by rw [State.memWrite_mem, State.memWrite_mem, hmem], hrest⟩

theorem SameButUnwritten.setPc (h : SameButUnwritten s s') (p : PcVal) : SameButUnwritten (s.setPc p) (s'.setPc p) := by
  obtain ⟨hmem, -, hrest⟩ := h
  exact ⟨hmem, rfl, hrest⟩

theorem SameButUnwritten.emit (h : SameButUnwritten s s') (v : Byte) : SameButUnwritten (s.emit v) (s'.emit v) := by
  obtain ⟨hmem, hpc, hstate, hfault, hout, hrest⟩ := h
  exact ⟨hmem, hpc, hstate, hfault, by rw [State.emit_out, State.emit_out, hout], hrest⟩

theorem SameButUnwritten.halt (h : SameButUnwritten s s') :
    SameButUnwritten { s with state := .halted } { s' with state := .halted } := by
  obtain ⟨hmem, hpc, -, hrest⟩ := h
  exact ⟨hmem, hpc, rfl, hrest⟩

theorem SameButUnwritten.takeFault (h : SameButUnwritten s s') (k : FaultKind) (v : Byte) :
    SameButUnwritten (s.takeFault k v) (s'.takeFault k v) := by
  obtain ⟨hmem, hpc, -, -, hrest⟩ := h
  exact ⟨hmem, hpc, rfl, by rw [State.takeFault_fault, State.takeFault_fault, hpc], hrest⟩

theorem SameButUnwritten.takeUnwritten (h : SameButUnwritten s s') (q : Fin 7) :
    SameButUnwritten (s.takeUnwritten q) (s'.takeUnwritten q) := by
  obtain ⟨hmem, hpc, -, hfault, hout, hwritten, -, hreg⟩ := h
  exact ⟨hmem, hpc, rfl, by rw [State.takeUnwritten_fault, State.takeUnwritten_fault, hpc, hfault], hout, hwritten, rfl, hreg⟩

theorem SameButUnwritten.afterRaise (h : SameButUnwritten s s') (r : Raised) :
    SameButUnwritten (s.afterRaise r) (s'.afterRaise r) := by
  cases r with
  | fault k v => exact h.takeFault k v
  | unwritten q => exact h.takeUnwritten q

theorem SameButUnwritten.memRead_sp (h : SameButUnwritten s s') : s'.memRead s'.sp = s.memRead s.sp := by
  rw [State.memRead, h.sp_eq, h.mem_eq, State.memRead]

theorem SameButUnwritten.poppedSp_eq (h : SameButUnwritten s s') (r : Fin 8) : poppedSp s' r = poppedSp s r := by
  rw [poppedSp, poppedSp, h.memRead_sp, h.sp_eq]

/-- PUSH of a known register: what it stores is the same from both states. -/
theorem SameButUnwritten.pushed (h : SameButUnwritten s s') {r : Fin 8} (hr : s.Known r) :
    SameButUnwritten (s.pushed r) (s'.pushed r) := by
  have hsp := h.setSp (s.sp - 1)
  rw [State.pushed, State.pushed, h.sp_eq, hsp.reg_eq (State.known_setSp.mpr hr)]
  exact hsp.memWrite _ _

theorem SameButUnwritten.popped (h : SameButUnwritten s s') (r : Fin 8) :
    SameButUnwritten (s.popped r) (s'.popped r) := by
  rw [State.popped, State.popped, h.memRead_sp, h.poppedSp_eq]
  exact (h.setReg r _).setSp _

/-- The step of the relation: an instruction that reads known registers only goes the same way from both states, to states that
are equal but for unwritten registers again. -/
theorem SameButUnwritten.executes {i : Instr} (h : SameButUnwritten s s') (hreads : ReadsKnown i s)
    (he : Executes i s t) : ∃ t', Executes i s' t' ∧ SameButUnwritten t t' := by
  have hpc : s'.pc = s.pc := h.pc_eq
  cases he with
  | hlt => exact ⟨_, .hlt, h.halt⟩
  | ldi ha => exact ⟨_, .ldi ha, hpc ▸ (h.setReg _ _).setPc _⟩
  | prn ha =>
    refine ⟨_, .prn ha, ?_⟩
    rw [hpc, h.reg_eq (hreads _ ha)]
    exact (h.emit _).setPc _
  | mul ha hb =>
    obtain ⟨hr, hq⟩ := hreads _ _ ha hb
    refine ⟨_, .mul ha hb, ?_⟩
    rw [hpc, h.reg_eq hr, h.reg_eq hq]
    exact (h.setReg _ _).setPc _
  | push ha hsp => exact ⟨_, .push ha (h.sp_eq ▸ hsp), hpc ▸ (h.pushed (hreads _ ha hsp)).setPc _⟩
  | pop ha hsp => exact ⟨_, .pop ha (h.poppedSp_eq _ ▸ hsp), hpc ▸ (h.popped _).setPc _⟩
  | badIndex hbad => exact ⟨_, .badIndex hbad, h.takeFault _ _⟩
  | pushBottom ha hsp =>
    refine ⟨_, .pushBottom ha (h.sp_eq ▸ hsp), ?_⟩
    rw [h.sp_eq]
    exact h.takeFault _ _
  | popTop ha hsp =>
    refine ⟨_, .popTop ha (h.poppedSp_eq _ ▸ hsp), ?_⟩
    rw [h.sp_eq]
    exact h.takeFault _ _

/-- Fetching and decoding reads pc and memory alone. -/
theorem fetchDecode_congr (hpc : s'.pc = s.pc) (hmem : s'.mem = s.mem) : fetchDecode s' = fetchDecode s := by
  simp only [fetchDecode, fetch, State.memRead, hpc, hmem]

theorem stepUnder_of_ended (u : UnwrittenRead) (hs : s.Ended) : stepUnder u s = .next s := by
  cases h : s.state with
  | running => exact absurd h hs
  | halted | faulted => simp only [stepUnder, h]

theorem stepUnder_of_ok (u : UnwrittenRead) (hs : s.state = .running) {i : Instr} (hi : fetchDecode s = .ok i) :
    stepUnder u s = execUnder u i s := by
  simp only [stepUnder, hs, hi]

theorem stepUnder_of_error (u : UnwrittenRead) (hs : s.state = .running) {r : Raised} (hf : fetchDecode s = .error r) :
    stepUnder u s = raiseFrom s r := by
  simp only [stepUnder, hs, hf]

/-- Settles O36: where the checking machine takes no model-only fault it read known registers only (`execUnder_fault_cases`), and
such a step goes the same way from both states (`SameButUnwritten.executes`). -/
theorem checkedStepsIgnoreResetValues : Obligations.CheckedStepsIgnoreResetValues := by
  intro s s' t h hst
  have hfetch : fetchDecode s' = fetchDecode s := fetchDecode_congr h.pc_eq h.mem_eq
  have hstate : s'.state = s.state := h.state_eq
  by_cases hs : s.state = .running
  · cases hf : fetchDecode s with
    | error r =>
      rw [stepUnder_of_error .fault hs hf, raiseFrom, Host.Outcome.next.injEq] at hst
      exact .inr ⟨_, step_of_error (hstate.trans hs) (hfetch.trans hf), hst ▸ h.afterRaise r⟩
    | ok i =>
      rw [stepUnder_of_ok .fault hs hf] at hst
      rcases execUnder_fault_cases i s with ⟨q, hq, e⟩ | ⟨e, hreads⟩
      · rw [e, Host.Outcome.next.injEq] at hst
        exact .inl ⟨q, hq, hst.symm⟩
      · obtain ⟨t', ht', hsame⟩ := h.executes hreads (exec_eq_next_iff.mp (e.symm.trans hst))
        exact .inr ⟨t', (step_of_ok (hstate.trans hs) (hfetch.trans hf)).trans ht'.exec_eq, hsame⟩
  · rw [stepUnder_of_ended .fault hs, Host.Outcome.next.injEq] at hst
    exact .inr ⟨s', step_of_ended (fun e => hs (hstate.symm.trans e)), hst ▸ h⟩

end Sys2Proof.Machine
end

section
/-! PROOFS. The statements about single instructions: effect, frame and faults, each read off the equations of `exec`. -/

namespace Sys2Proof.Machine

variable {r q : Fin 8} {s : State}

/-! ### What PUSH and POP make of the state, field by field -/

@[simp] theorem State.setPc_memRead_sp (s : State) (p : PcVal) : (s.setPc p).memRead (s.setPc p).sp = s.memRead s.sp := rfl

/-- The byte PUSH stores: the register as it is after SP's decrement, so for R7 the decremented SP (R111, D10). -/
def State.pushValue (s : State) (r : Fin 8) : Byte := if r = Config.spIndex then s.sp - 1 else s.reg r

theorem State.pushed_mem (s : State) (r : Fin 8) : (s.pushed r).mem = s.mem.write (s.sp - 1).toNat (s.pushValue r) := by
  simp only [State.pushed, State.pushValue, State.memWrite_mem, State.setSp_mem, State.reg_setSp, eq_comm]

@[simp] theorem State.pushed_sp (s : State) (r : Fin 8) : (s.pushed r).sp = s.sp - 1 := s.sp_setSp (s.sp - 1)

theorem State.pushed_reg (s : State) (r : Fin 8) (hq : q ≠ Config.spIndex) : (s.pushed r).reg q = s.reg q :=
  s.reg_setReg_other Config.spIndex q _ hq.symm

/-- Memory after PUSH: the stored byte at the new SP, the old bytes elsewhere. -/
theorem State.read_pushed (hwf : s.mem.wf) (r : Fin 8) (x : Nat) :
    (s.pushed r).mem.read x = if x = (s.sp - 1).toNat then s.pushValue r else s.mem.read x := by
  rw [State.pushed_mem, Memory.read_write hwf.1]

theorem State.read_pushed_sp (hwf : s.mem.wf) (r : Fin 8) : (s.pushed r).mem.read (s.sp - 1).toNat = s.pushValue r := by
  rw [State.read_pushed hwf, if_pos rfl]

@[simp] theorem State.popped_sp (s : State) (r : Fin 8) : (s.popped r).sp = BitVec.ofNat 8 (poppedSp s r) :=
  (s.setReg r (s.memRead s.sp)).sp_setSp _

theorem State.popped_reg_same (s : State) (hr : r ≠ Config.spIndex) : (s.popped r).reg r = s.memRead s.sp := by
  rw [State.popped, State.reg_setSp, if_neg hr.symm, State.reg_setReg_same]

theorem State.popped_reg_other (s : State) (hqr : q ≠ r) (hq : q ≠ Config.spIndex) : (s.popped r).reg q = s.reg q := by
  rw [State.popped, State.reg_setSp, if_neg hq.symm, State.reg_setReg_other _ _ _ _ hqr.symm]

theorem State.popped_written (s : State) (r : Fin 8) (k : Fin 7) :
    (s.popped r).written[k] = (decide (k.val = r.val) || s.written[k]) :=
  s.written_setReg_eq_or r (s.memRead s.sp) k

theorem poppedSp_spIndex (s : State) : poppedSp s Config.spIndex = (s.memRead s.sp).toNat + 1 := rfl

theorem poppedSp_of_ne (s : State) (hr : r ≠ Config.spIndex) : poppedSp s r = s.sp.toNat + 1 := by
  rw [poppedSp, if_neg hr]

/-- A byte other than 0 is one more than its predecessor: SP's decrement does not wrap. -/
theorem pred_toNat_succ {v : Byte} (h : v ≠ 0) : (v - 1).toNat + 1 = v.toNat := by
  have hpos : v.toNat ≠ 0 := fun e => h (BitVec.eq_of_toNat_eq e)
  rw [sp_pred_toNat h]
  omega

/-- A byte other than 255 can be incremented without wrapping. -/
theorem toNat_succ_le {v : Byte} (h : v ≠ 255) : v.toNat + 1 ≤ 255 := by
  have hne : v.toNat ≠ 255 := fun e => h (BitVec.eq_of_toNat_eq e)
  have hlt := v.isLt
  omega

/-- The incremented SP, where it stays inside 0..255, is the popped SP as a number. -/
theorem State.popped_sp_toNat (h : poppedSp s r ≤ 255) : (s.popped r).sp.toNat = poppedSp s r := by
  rw [State.popped_sp, BitVec.toNat_ofNat]
  omega

/-! ### The statements -/

/-- Settles O10: with an index in range PRN is `emit` then `setPc`; else the index fault; unwritten, the model-only fault. -/
theorem prnEmitsItsRegister : Obligations.PrnEmitsItsRegister := by
  intro a s
  refine ⟨fun b => decode_opcode .prn a b, rfl, fun r ha => ⟨_, exec_prn_of_eq ha s, ?_⟩,
    fun ha => ⟨_, exec_prn_of_le ha s, rfl, rfl⟩, fun r ha hr => execPrnUnder_of_unwritten ha hr⟩
  simp only [State.setPc_out, State.setPc_pc, State.setPc_reg, State.setPc_mem, State.setPc_state, State.setPc_fault,
    State.setPc_written, State.setPc_modelFault, State.emit_out, State.emit_reg, State.emit_mem, State.emit_state,
    State.emit_fault, State.emit_written, State.emit_modelFault, implies_true, and_self]

/-- Settles O12: with both indices in range MUL is `setReg` of the product of bytes, which is modulo 2^8, then `setPc`; else the
index fault of the first that is out of range. -/
theorem mulMultipliesIntoRegisterA : Obligations.MulMultipliesIntoRegisterA := by
  intro a b s
  refine ⟨fun r q ha hb => ⟨_, exec_mul_of_eq ha hb s, ?_⟩, fun ha => exec_mul_of_le_left ha b s,
    fun ha hb => exec_mul_of_le_right ha hb s⟩
  simp only [State.setPc_out, State.setPc_pc, State.setPc_reg, State.setPc_mem, State.setPc_state, State.setPc_fault,
    State.setPc_written, State.setPc_modelFault, State.setReg_out, State.setReg_mem, State.setReg_state,
    State.setReg_fault, State.setReg_modelFault, State.reg_setReg_same, implies_true, true_and]
  exact ⟨BitVec.toNat_mul .., fun p hp => s.reg_setReg_other r p _ hp.symm, s.written_setReg_eq_or r _⟩

/-- Settles O13: the effect is `State.pushed`, whose fields are its lemmas above. -/
theorem pushStoresBelowTheStackPointer : Obligations.PushStoresBelowTheStackPointer := by
  intro a r s ha hsp hwf
  refine ⟨_, exec_push_of_eq ha hsp, ?_, ?_, fun x hx => ?_, fun q hq => s.pushed_reg r hq, rfl, rfl, rfl, rfl, rfl, rfl⟩
  · rw [State.setPc_sp, State.pushed_sp, pred_toNat_succ hsp]
  · rw [State.setPc_memRead_sp, State.memRead, State.pushed_sp, State.read_pushed_sp hwf, State.pushValue]
  · rw [State.setPc_mem, State.read_pushed hwf, if_neg hx]

/-- Settles O14: the two refusals of PUSH. -/
theorem pushTrapsAtTheBottom : Obligations.PushTrapsAtTheBottom := by
  exact fun a s => ⟨fun ha => exec_push_of_le ha s, fun ha hsp => execPushUnder_of_sp_zero .draw ha hsp⟩

/-- Settles O15: the effect is `State.popped`, whose fields are its lemmas above. -/
theorem popReadsThenIncrements : Obligations.PopReadsThenIncrements := by
  intro a r s ha hspIndex hother
  have hle : poppedSp s r ≤ 255 := by
    by_cases hr : r = Config.spIndex
    · rw [hr, poppedSp_spIndex]
      exact toNat_succ_le (hspIndex hr)
    · rw [poppedSp_of_ne s hr]
      exact toNat_succ_le (hother hr)
  have hsp : ((s.popped r).setPc (s.pc + 2)).sp.toNat = poppedSp s r := State.popped_sp_toNat hle
  refine ⟨_, exec_pop_of_eq ha hle, fun hr => ?_, fun hr => ⟨s.popped_reg_same hr, ?_⟩,
    fun q hqr hq => s.popped_reg_other hqr hq, rfl, fun _ => rfl, rfl, rfl, rfl, rfl, s.popped_written r⟩
  · rw [hsp, hr, poppedSp_spIndex]
  · rw [hsp, poppedSp_of_ne s hr]

/-- Settles O16: the index fault, and the two ways the incremented SP comes to 256. -/
theorem popTrapsAtTheTop : Obligations.PopTrapsAtTheTop := by
  refine fun a s => ⟨fun ha => exec_pop_of_le ha s, fun ha hsp => ?_, fun ha hbyte => ?_⟩
  · have hne : (⟨a.toNat, by omega⟩ : Fin 8) ≠ Config.spIndex := fun e => by
      have h7 : a.toNat = 7 := congrArg Fin.val e
      omega
    have htop := exec_pop_of_top (s := s) rfl (by rw [poppedSp_of_ne s hne, hsp]; decide)
    rwa [hsp] at htop
  · exact exec_pop_of_top (r := Config.spIndex) ha (by rw [poppedSp_spIndex, hbyte]; decide)

/-- Settles O18: `regOperand` answers the register of the byte's value or raises, and each instruction's refusal follows. -/
theorem registerIndexIsNeverWrapped : Obligations.RegisterIndexIsNeverWrapped := by
  refine ⟨fun a r => ⟨fun h => ?_, regOperand_of_eq⟩, fun a s ha => ?_, fun a imm s ha => ?_⟩
  · rcases regOperand_cases a with ⟨q, hq, e⟩ | ⟨-, e⟩
    · rw [e, Except.ok.injEq] at h
      exact h ▸ hq
    · cases e.symm.trans h
  · exact ⟨regOperand_of_le ha, fun imm => exec_ldi_of_le ha imm s, exec_prn_of_le ha s, fun b => exec_mul_of_le_left ha b s,
      fun b hb => exec_mul_of_le_right hb ha s, exec_push_of_le ha s, exec_pop_of_le ha s⟩
  · exact ⟨_, exec_ldi_of_eq (r := ⟨a.toNat, ha⟩) rfl imm s, rfl, rfl⟩

/-- Settles O19: `exists_executes` and `exists_steps`; the checking machine answers the same or takes the model-only fault. -/
theorem everyInstructionAnswersANextState : Obligations.EveryInstructionAnswersANextState := by
  have hexec : ∀ (i : Instr) (s : State), ∃ t, exec i s = .next t := fun i s =>
    (exists_executes i s).imp fun _ => Executes.exec_eq
  have hstep : ∀ s : State, ∃ t, step s = .next t := fun s => (exists_steps s).imp fun _ => And.left
  refine ⟨hexec, hstep, fun u s => ⟨fun i => ?_, ?_⟩⟩
  · rcases execUnder_cases u i s with e | ⟨-, q, -, e⟩
    · exact e ▸ hexec i s
    · exact ⟨_, e⟩
  · rcases stepUnder_cases u s with e | ⟨-, -, -, q, -, e⟩
    · exact e ▸ hstep s
    · exact ⟨_, e⟩

/-- Settles O17: HLT's one way of executing. -/
theorem hltStopsTheEngine : Obligations.HltStopsTheEngine :=
  fun _ => ⟨_, Executes.hlt.exec_eq, rfl, rfl, rfl, fun _ => rfl, fun _ => rfl, rfl, rfl, rfl, rfl⟩

end Sys2Proof.Machine
end

section
/-! PROOFS. The statements about one step: its three ends, and what it does to pc, output and the bytes fetched next. -/

namespace Sys2Proof.Machine

variable {s t : State} {i : Instr}

/-! ### Fetching -/

theorem fetchDecode_of_out_of_range (h : 253 < s.pc.toNat) : fetchDecode s = .error (.fault .fetchOutOfRange 0) := by
  rcases fetchDecode_cases s with ⟨-, e⟩ | ⟨hpc, -⟩ | ⟨hpc, -⟩
  · exact e
  · omega
  · omega

theorem fetchDecode_of_fetch {op b1 b2 : Byte} (hf : fetch s = .ok (op, b1, b2)) (hd : decode op b1 b2 = .ok i) :
    fetchDecode s = .ok i := by
  simp [fetchDecode, hf, hd]

/-- The three bytes placed at pc are the three bytes fetched there. -/
theorem fetch_placeAtPc (hpc : s.pc.toNat ≤ 253) (hwf : s.mem.wf) (op b1 b2 : Byte) :
    fetch (placeAtPc s op b1 b2) = .ok (op, b1, b2) := by
  have hrange : ¬ s.pc.toNat + 2 > 255 := by omega
  have hwf1 : (s.memWrite (s.pc.setWidth 8) op).mem.wf := Memory.wf_write_addr hwf _ _
  have hwf2 : ((s.memWrite (s.pc.setWidth 8) op).memWrite (s.pc.setWidth 8 + 1) b1).mem.wf :=
    Memory.wf_write_addr hwf1 _ _
  have h01 : s.pc.setWidth 8 ≠ s.pc.setWidth 8 + 1 := by bv_omega
  have h02 : s.pc.setWidth 8 ≠ s.pc.setWidth 8 + 2 := by bv_omega
  have h12 : s.pc.setWidth 8 + 1 ≠ s.pc.setWidth 8 + 2 := by bv_omega
  rw [placeAtPc, if_neg hrange]
  simp only [fetch, State.memWrite_pc, if_neg hrange, State.memRead_memWrite hwf, State.memRead_memWrite hwf1,
    State.memRead_memWrite hwf2, if_neg h01, if_neg h02, if_neg h12, if_true]

theorem decode_of_decodeTableWord {nbits w : Nat} (h : decodeTableWord nbits w = some i) :
    decode (tableByte nbits w 0) (tableByte nbits w 1) (tableByte nbits w 2) = .ok i := by
  unfold decodeTableWord at h
  split at h
  · rename_i j hj
    rw [Option.some.injEq] at h
    exact h ▸ hj
  · cases h

theorem placeAtPc_state (s : State) (op b1 b2 : Byte) : (placeAtPc s op b1 b2).state = s.state := by
  unfold placeAtPc
  split <;> rfl

/-- Settles O22: out of range, whatever memory holds, the range fault is all that fetching answers. -/
theorem fetchPastTheEndFaults : Obligations.FetchPastTheEndFaults := by
  intro s hs hpc m
  exact step_of_error (s := { s with mem := m }) hs (fetchDecode_of_out_of_range hpc)

/-- Settles O25: the bytes at pc are what is fetched, and a step runs what is fetched. -/
theorem stepRunsTheDecodedInstruction : Obligations.StepRunsTheDecodedInstruction :=
  fun _ _ hs hpc hd => step_of_ok hs (fetchDecode_of_fetch (fetch_ok hpc) hd)

/-- Settles O26: the word's bytes are what is fetched (`fetch_placeAtPc`). -/
theorem placedWordRunsNext : Obligations.PlacedWordRunsNext := by
  intro s nbits w i hs hpc hwf hw
  have hs' : (s.withFetchWord nbits w).state = .running := (placeAtPc_state s _ _ _).trans hs
  exact step_of_ok hs' (fetchDecode_of_fetch (fetch_placeAtPc hpc hwf _ _ _) (decode_of_decodeTableWord hw))

/-! ### The three ends of a Running engine's step -/

/-- A Running engine's step halts at a HLT, goes on past the instruction at pc, or takes a fault of a program's four kinds. -/
theorem Steps.three_ends (h : Steps s t) (hs : s.state = .running) :
    (fetchDecode s = .ok .hlt ∧ t = { s with state := .halted }) ∨
    (∃ i, fetchDecode s = .ok i ∧ i ≠ .hlt ∧ t.pc.toNat = s.pc.toNat + i.mnemonic.width ∧ t.state = .running) ∨
    ∃ k v, k ≠ .unsupportedALUOperation ∧ t = s.takeFault k v := by
  cases h with
  | ended hend => exact absurd hs hend
  | fetchFault _ hf => exact .inr (.inr ⟨_, _, hf.ne_unsupported, rfl⟩)
  | executes _ hi he =>
    rcases he.three_ends with ⟨rfl, rfl⟩ | ⟨hne, hpc, hstate, -, -⟩ | ⟨k, v, hf, rfl⟩
    · exact .inl ⟨hi, rfl⟩
    · exact .inr (.inl ⟨_, hi, hne, hpc ▸ pc_advance_toNat (fetchDecode_range hi) _, hstate.trans hs⟩)
    · exact .inr (.inr ⟨k, v, hf.ne_unsupported, rfl⟩)

/-- The codes of a program's four fault kinds (R140). -/
theorem code_mem {k : FaultKind} (h : k ≠ .unsupportedALUOperation) : k.code ∈ [(1 : BitVec 3), 2, 3, 4] := by
  cases k with
  | unsupportedALUOperation => exact absurd rfl h
  | unknownOpcode | registerIndexOutOfRange | stackBoundaryViolation | fetchOutOfRange => decide

/-- Settles O21: of the three ends only the fault is Faulted. -/
theorem faultingStepCommitsNothing : Obligations.FaultingStepCommitsNothing := by
  intro s t hs hst hf
  rcases (steps_of_step hst).three_ends hs with ⟨-, rfl⟩ | ⟨_, -, -, -, hstate⟩ | ⟨k, v, hk, rfl⟩
  · cases hf
  · cases hstate.symm.trans hf
  · exact ⟨rfl, rfl, code_mem hk⟩

/-- Settles O28: an ended engine keeps its state, and so does a step that goes on; the two others are the two ways. -/
theorem engineStateChangesOnlyTwoWays : Obligations.EngineStateChangesOnlyTwoWays := by
  intro s t hst hne
  by_cases hs : s.state = .running
  · refine ⟨hs, ?_⟩
    rcases (steps_of_step hst).three_ends hs with ⟨hi, rfl⟩ | ⟨_, -, -, -, hstate⟩ | ⟨k, v, -, rfl⟩
    · obtain ⟨hpc, hop, -⟩ := fetchDecode_eq_ok_iff.mp hi
      exact .inl ⟨rfl, hpc, hop⟩
    · exact absurd (hstate.trans hs.symm) hne
    · exact .inr rfl
  · rw [step_of_ended hs, Host.Outcome.next.injEq] at hst
    exact absurd (congrArg State.state hst.symm) hne

/-- Settles O29: a step that goes on is the second of the three ends; the two others keep pc. -/
theorem pcAdvancesByTheWidth : Obligations.PcAdvancesByTheWidth := by
  intro s t hs hst
  rcases (steps_of_step hst).three_ends hs with ⟨-, rfl⟩ | ⟨i, hi, hne, hpc, hstate⟩ | ⟨k, v, -, rfl⟩
  · exact ⟨nofun, fun _ => rfl⟩
  · exact ⟨fun _ => ⟨i, hi, hne, hpc⟩, fun hend => absurd hstate hend⟩
  · exact ⟨nofun, fun _ => rfl⟩

/-! ### Output -/

/-- An instruction keeps the output, or is a PRN and appends the value of the register it names. -/
theorem Executes.out_cases (h : Executes i s t) :
    t.out = s.out ∨ ∃ (a : Byte) (r : Fin 8), i = .prn a ∧ a.toNat = r.val ∧ t.out = s.out ++ [s.reg r] := by
  cases h with
  | prn ha => exact .inr ⟨_, _, rfl, ha, rfl⟩
  | hlt | ldi | mul | push | pop | badIndex | pushBottom | popTop => exact .inl rfl

theorem outsOf_of_eq (h : t.out = s.out) : outsOf s t = [] := by
  rw [outsOf, h, List.drop_length]

theorem outsOf_of_append {v : Byte} (h : t.out = s.out ++ [v]) : outsOf s t = [v] := by
  rw [outsOf, h, List.drop_left]

/-- Settles O30: only PRN appends (`Executes.out_cases`), and the PRN executed is the one that stands at pc. -/
theorem outputGrowsOnlyByPrn : Obligations.OutputGrowsOnlyByPrn := by
  intro s t hst
  cases steps_of_step hst with
  | ended _ => exact .inl ⟨rfl, outsOf_of_eq rfl⟩
  | fetchFault _ _ => exact .inl ⟨rfl, outsOf_of_eq rfl⟩
  | executes _ hi he =>
    rcases he.out_cases with hout | ⟨a, r, rfl, ha, hout⟩
    · exact .inl ⟨hout, outsOf_of_eq hout⟩
    · obtain ⟨-, hop, hoperand⟩ := fetchDecode_eq_ok_iff.mp hi
      have hbyte : s.mem.read (s.pc.toNat + 1) = a := Instr.prn.inj hoperand
      exact .inr ⟨hop, r, hbyte ▸ ha, hout, outsOf_of_append hout⟩

/-! ### Two steps -/

/-- Settles O31: the step is PUSH's, so memory is `State.read_pushed`, and a fetch answers the bytes of memory. -/
theorem pushedByteIsFetched : Obligations.PushedByteIsFetched := by
  intro s t r hs hpc hwf hsp hop hr hst p hp f hf
  rw [step_of_opcode hs hpc .push hop, Mnemonic.withOperands, exec_push_of_eq hr hsp, Host.Outcome.next.injEq] at hst
  subst hst
  have hread : ∀ x, (s.pushed r).mem.read x = f x := fun x => (s.read_pushed hwf r x).trans (hf x).symm
  rw [fetch_ok hp]
  simp only [State.setPc_mem, State.setPc_pc, hread]

/-- Settles O32: the first step is LDI's and keeps memory, so the second finds PRN at its pc and emits the register loaded. -/
theorem loadThenPrintReproducesTheValue : Obligations.LoadThenPrintReproducesTheValue := by
  intro s r hs hpc hldi hr hprn hsame
  have hstep := step_of_opcode hs (by omega) .ldi hldi
  rw [Mnemonic.withOperands, exec_ldi_of_eq hr] at hstep
  generalize ht : (s.setReg r (s.mem.read (s.pc.toNat + 2))).setPc (s.pc + 3) = t at hstep
  have hmem : t.mem = s.mem := ht ▸ rfl
  have hout : t.out = s.out := ht ▸ rfl
  have hstate : t.state = .running := ht ▸ hs
  have hreg : t.reg r = s.mem.read (s.pc.toNat + 2) := ht ▸ s.reg_setReg_same r _
  have htpc : t.pc.toNat = s.pc.toNat + 3 := ht ▸ pc_advance_toNat (by omega) .ldi
  have hop : t.mem.read t.pc.toNat = Mnemonic.prn.opcode := by rw [hmem, htpc, hprn]; rfl
  have hr' : (t.mem.read (t.pc.toNat + 1)).toNat = r.val := by rw [hmem, htpc, hsame, hr]
  have hstep' := step_of_opcode hstate (by omega) .prn hop
  rw [Mnemonic.withOperands, exec_prn_of_eq hr'] at hstep'
  refine ⟨_, (run_succ hstep 1).trans (run_succ hstep' 0), ?_, ?_, hstate⟩
  · rw [State.setPc_out, State.emit_out, hout, hreg]
  · have hend := pc_advance_toNat (p := t.pc) (by omega) .prn
    have hwidth : Mnemonic.prn.width = 2 := rfl
    rw [State.setPc_pc]
    exact hend.trans (by omega)

end Sys2Proof.Machine
end

section
/-! PROOFS. Whole runs: an ended engine stays as it is, pc bounds the number of steps, and so 128 steps decide a run. -/

namespace Sys2Proof.Machine

variable {s t : State}

/-- A run from an ended engine answers that engine. -/
theorem run_of_ended (hs : s.Ended) (n : Nat) : Host.Core.run core n s = .next s := by
  induction n with
  | zero => rfl
  | succ n ih => rw [run_succ (step_of_ended hs), ih]

/-- A run of any length answers a state. -/
theorem exists_run (n : Nat) (s : State) : ∃ t, Host.Core.run core n s = .next t := by
  induction n generalizing s with
  | zero => exact ⟨s, rfl⟩
  | succ n ih =>
    obtain ⟨t, ht, -⟩ := exists_steps s
    rw [run_succ ht]
    exact ih t

/-- A run goes on from the state that its first part answers. -/
theorem run_add {n : Nat} (h : Host.Core.run core n s = .next t) (m : Nat) :
    Host.Core.run core (n + m) s = Host.Core.run core m t := by
  induction n generalizing s with
  | zero =>
    have hst : s = t := Host.Outcome.next.inj h
    rw [Nat.zero_add, hst]
  | succ n ih =>
    obtain ⟨u, hu, -⟩ := exists_steps s
    rw [run_succ hu] at h
    rw [Nat.add_right_comm, run_succ hu, ih h]

/-- A longer run than one that ended answers the same state. -/
theorem run_of_le {n m : Nat} (h : Host.Core.run core n s = .next t) (ht : t.Ended) (hnm : n ≤ m) :
    Host.Core.run core m s = .next t := by
  obtain ⟨k, rfl⟩ := Nat.exists_eq_add_of_le hnm
  rw [run_add h, run_of_ended ht]

/-- Runs of one engine, of whatever lengths, that end answer the same state. -/
theorem end_unique {n m : Nat} {u : State} (hu : Host.Core.run core n s = .next u) (huend : u.Ended)
    (ht : Host.Core.run core m s = .next t) (htend : t.Ended) : u = t := by
  rcases Nat.le_total n m with hnm | hmn
  · exact Host.Outcome.next.inj ((run_of_le hu huend hnm).symm.trans ht)
  · exact Host.Outcome.next.inj (hu.symm.trans (run_of_le ht htend hmn))

/-- Every instruction but HLT is two bytes or more (R70, R75). -/
theorem two_le_width {i : Instr} (h : i ≠ .hlt) : 2 ≤ i.mnemonic.width := by
  cases i with
  | hlt => exact absurd rfl h
  | ldi | mul => exact Nat.le_succ 2
  | prn | push | pop => exact Nat.le_refl 2

/-- A step ends the run, or had an instruction to fetch and moves pc on by two or more. -/
theorem Steps.ended_or_progress (h : Steps s t) : t.Ended ∨ (s.pc.toNat ≤ 253 ∧ s.pc.toNat + 2 ≤ t.pc.toNat) := by
  by_cases hs : s.state = .running
  · rcases h.three_ends hs with ⟨-, rfl⟩ | ⟨i, hi, hne, hpc, -⟩ | ⟨k, v, -, rfl⟩
    · exact .inl nofun
    · have hwidth := two_le_width hne
      exact .inr ⟨fetchDecode_range hi, by omega⟩
    · exact .inl nofun
  · cases h with
    | ended hend => exact .inl hend
    | fetchFault hrun _ => exact absurd hrun hs
    | executes hrun _ _ => exact absurd hrun hs

/-- From pc on, a step for every two addresses left below 254 and one more end the run. -/
theorem run_ends {n : Nat} (hn : 254 ≤ s.pc.toNat + 2 * n) : ∃ t, Host.Core.run core (n + 1) s = .next t ∧ t.Ended := by
  induction n generalizing s with
  | zero =>
    obtain ⟨t, hst, ht⟩ := exists_steps s
    rcases ht.ended_or_progress with hend | ⟨hpc, -⟩
    · exact ⟨t, run_succ hst 0, hend⟩
    · omega
  | succ n ih =>
    obtain ⟨t, hst, ht⟩ := exists_steps s
    rw [run_succ hst]
    rcases ht.ended_or_progress with hend | ⟨-, hpc⟩
    · exact ⟨t, run_of_ended hend (n + 1), hend⟩
    · exact ih (by omega)

/-- Settles O27. -/
theorem endedEngineDoesNothing : Obligations.EndedEngineDoesNothing := fun _ hs n => run_of_ended hs n

/-- Settles O43: 127 times two addresses is 254 (`run_ends`). -/
theorem everyRunEndsWithin128Steps : Obligations.EveryRunEndsWithin128Steps :=
  fun s => run_ends (n := 127) (Nat.le_add_left 254 s.pc.toNat)

/-- Settles O44: the state after 128 steps is ended, so a safe one is Halted; and a Faulted state
of any run would be the same end (`end_unique`). -/
theorem safeRunsAreThoseThatHalt : Obligations.SafeRunsAreThoseThatHalt := by
  intro s
  constructor
  · intro hsafe
    obtain ⟨t, ht, hend⟩ := everyRunEndsWithin128Steps s
    obtain ⟨t', ht', hnot⟩ := hsafe 128
    rw [ht, Host.Outcome.next.injEq] at ht'
    subst ht'
    refine ⟨t, ht, ?_⟩
    cases hstate : t.state with
    | running => exact absurd hstate hend
    | halted => rfl
    | faulted => exact absurd hstate hnot
  · rintro ⟨t, ht, hhalted⟩ n
    obtain ⟨u, hu⟩ := exists_run n s
    refine ⟨u, hu, fun hfaulted => ?_⟩
    have htend : t.Ended := fun e => by cases hhalted.symm.trans e
    have huend : u.Ended := fun e => by cases hfaulted.symm.trans e
    rw [end_unique hu huend ht htend, hhalted] at hfaulted
    cases hfaulted

end Sys2Proof.Machine
end

section
/-! PROOFS. What instructions do not touch: memory but for the stack's byte, the fault record, the model's bookkeeping. -/

namespace Sys2Proof.Machine

variable {s t : State} {i : Instr}

/-! ### Memory -/

/-- Only PUSH changes memory. -/
theorem Executes.mem_eq (h : Executes i s t) (hi : i.mnemonic ≠ .push) : t.mem = s.mem := by
  cases h with
  | push => exact absurd rfl hi
  | hlt | ldi | prn | mul | pop | badIndex | pushBottom | popTop => rfl

/-- HLT, LDI, PRN and MUL go the same way whatever memory holds. -/
theorem Executes.withMem (h : Executes i s t) (hpush : i.mnemonic ≠ .push) (hpop : i.mnemonic ≠ .pop) (m : Memory) :
    Executes i { s with mem := m } { t with mem := m } := by
  cases h with
  | hlt => exact .hlt
  | ldi ha => exact .ldi ha
  | prn ha => exact .prn ha
  | mul ha hb => exact .mul ha hb
  | push | pushBottom => exact absurd rfl hpush
  | pop | popTop => exact absurd rfl hpop
  | badIndex hbad => exact .badIndex hbad

/-- Another memory with the same byte at SP: POP reads the same byte. -/
theorem memRead_sp_withMem {m : Memory} (hm : m.read s.sp.toNat = s.mem.read s.sp.toNat) :
    ({ s with mem := m } : State).memRead ({ s with mem := m } : State).sp = s.memRead s.sp := hm

theorem poppedSp_withMem {m : Memory} (hm : m.read s.sp.toNat = s.mem.read s.sp.toNat) (r : Fin 8) :
    poppedSp { s with mem := m } r = poppedSp s r := by
  rw [poppedSp, memRead_sp_withMem hm]
  rfl

theorem popped_withMem {m : Memory} (hm : m.read s.sp.toNat = s.mem.read s.sp.toNat) (r : Fin 8) :
    ({ s with mem := m } : State).popped r = { s.popped r with mem := m } := by
  rw [State.popped, memRead_sp_withMem hm, poppedSp_withMem hm]
  rfl

/-- POP goes the same way from any memory with the same byte at SP. -/
theorem Executes.pop_withMem {a : Byte} (h : Executes (.pop a) s t) {m : Memory}
    (hm : m.read s.sp.toNat = s.mem.read s.sp.toNat) : Executes (.pop a) { s with mem := m } { t with mem := m } := by
  cases h with
  | pop ha hsp =>
    have he : Executes (.pop a) { s with mem := m } _ := .pop ha (poppedSp_withMem hm _ ▸ hsp)
    rw [popped_withMem hm] at he
    exact he
  | badIndex hbad => exact .badIndex hbad
  | popTop ha hsp => exact .popTop ha (poppedSp_withMem hm _ ▸ hsp)

/-- PUSH keeps every byte but the one at the decremented SP. -/
theorem Executes.push_read_other {a : Byte} (h : Executes (.push a) s t) (hwf : s.mem.wf) {x : Nat}
    (hx : x ≠ (s.sp - 1).toNat) : t.mem.read x = s.mem.read x := by
  cases h with
  | push ha hsp => rw [State.setPc_mem, State.read_pushed hwf, if_neg hx]
  | badIndex | pushBottom => rfl

/-- From any memory PUSH answers the same state but for the memory, and stores the same byte. -/
theorem Executes.push_withMem {a : Byte} (h : Executes (.push a) s t) (m : Memory) :
    ∃ m', Executes (.push a) { s with mem := m } { t with mem := m' } ∧
      (a.toNat < 8 → s.sp ≠ 0 → s.mem.wf → m.wf → m'.read (s.sp - 1).toNat = t.mem.read (s.sp - 1).toNat) := by
  cases h with
  | @push _ _ r ha hsp =>
    refine ⟨_, .push ha hsp, fun _ _ hwf hwf' => ?_⟩
    exact (State.read_pushed_sp (s := { s with mem := m }) hwf' r).trans (State.read_pushed_sp hwf r).symm
  | badIndex hbad =>
    obtain ⟨ha, rfl⟩ := find_bad_singleton.mp hbad
    exact ⟨m, .badIndex hbad, fun hlt => absurd hlt (Nat.not_lt.mpr ha)⟩
  | pushBottom ha hsp => exact ⟨m, .pushBottom ha hsp, fun _ hne => absurd hsp hne⟩

/-- Settles O33: its five clauses are the five lemmas above, `exec` read as `Executes`. -/
theorem onlyTheStackTouchesMemory : Obligations.OnlyTheStackTouchesMemory := by
  simp only [Obligations.OnlyTheStackTouchesMemory, exec_eq_next_iff]
  exact ⟨fun _ _ _ hi he => he.mem_eq hi, fun _ _ _ m hpush hpop he => he.withMem hpush hpop m,
    fun _ _ _ _ hm he => he.pop_withMem hm, fun _ _ _ hwf he _ hx => he.push_read_other hwf hx,
    fun _ _ _ m he => he.push_withMem m⟩

/-! ### The record and the bookkeeping -/

/-- With another record an instruction goes the same way: it completes and keeps the record, or takes the same fault. -/
theorem Executes.withFault (h : Executes i s t) (f : FaultRecord) :
    (t.fault = s.fault ∧ Executes i { s with fault := f } { t with fault := f }) ∨
    ∃ k v, t = s.takeFault k v ∧ Executes i { s with fault := f } (s.takeFault k v) := by
  cases h with
  | hlt => exact .inl ⟨rfl, .hlt⟩
  | ldi ha => exact .inl ⟨rfl, .ldi ha⟩
  | prn ha => exact .inl ⟨rfl, .prn ha⟩
  | mul ha hb => exact .inl ⟨rfl, .mul ha hb⟩
  | push ha hsp => exact .inl ⟨rfl, .push ha hsp⟩
  | pop ha hsp => exact .inl ⟨rfl, .pop ha hsp⟩
  | badIndex hbad => exact .inr ⟨_, _, rfl, .badIndex hbad⟩
  | pushBottom ha hsp => exact .inr ⟨_, _, rfl, .pushBottom ha hsp⟩
  | popTop ha hsp => exact .inr ⟨_, _, rfl, .popTop ha hsp⟩

/-- With another written set and another name of the model-only fault an instruction goes the same way. -/
theorem Executes.withBookkeeping (h : Executes i s t) (w : Vector Bool 7) (f : Option ModelFault) :
    ∃ t', Executes i { s with written := w, modelFault := f } t' ∧ t'.modelFault = f ∧
      { t' with written := t.written, modelFault := t.modelFault } = t := by
  cases h with
  | hlt => exact ⟨_, .hlt, rfl, rfl⟩
  | ldi ha => exact ⟨_, .ldi ha, rfl, rfl⟩
  | prn ha => exact ⟨_, .prn ha, rfl, rfl⟩
  | mul ha hb => exact ⟨_, .mul ha hb, rfl, rfl⟩
  | push ha hsp => exact ⟨_, .push ha hsp, rfl, rfl⟩
  | pop ha hsp => exact ⟨_, .pop ha hsp, rfl, rfl⟩
  | badIndex hbad => exact ⟨_, .badIndex hbad, rfl, rfl⟩
  | pushBottom ha hsp => exact ⟨_, .pushBottom ha hsp, rfl, rfl⟩
  | popTop ha hsp => exact ⟨_, .popTop ha hsp, rfl, rfl⟩

/-- Settles O34: `Executes.withFault`, `exec` read as `Executes`. -/
theorem faultRecordIsNeverRead : Obligations.FaultRecordIsNeverRead := by
  intro i s f
  obtain ⟨t, ht⟩ := exists_executes i s
  rcases ht.withFault f with ⟨hkept, he⟩ | ⟨k, v, rfl, he⟩
  · exact .inl ⟨t, ht.exec_eq, hkept, he.exec_eq⟩
  · exact .inr ⟨k, v, ht.exec_eq, he.exec_eq⟩

/-- Settles O35: `Executes.withBookkeeping`, `exec` read as `Executes`. -/
theorem bookkeepingChangesNoResult : Obligations.BookkeepingChangesNoResult := by
  intro i s t w f h
  obtain ⟨t', he, hmodel, hrest⟩ := (exec_eq_next_iff.mp h).withBookkeeping w f
  exact ⟨t', he.exec_eq, hmodel, hrest⟩

end Sys2Proof.Machine
end

section
/-! PROOFS. The stack laws (41_stack.md): a POP that finds the byte a PUSH stored, and the registers it left,
undoes it. -/

namespace Sys2Proof.Machine

variable {a : Byte} {r q : Fin 8} {s t : State}

theorem execAll_cons {i : Instr} (h : exec i s = .next t) (is : List Instr) : execAll (i :: is) s = execAll is t := by
  simp only [execAll, h]

theorem execAll_append {is : List Instr} (h : execAll is s = .next t) (js : List Instr) :
    execAll (is ++ js) s = execAll js t := by
  induction is generalizing s with
  | nil =>
    have hst : s = t := Host.Outcome.next.inj h
    rw [List.nil_append, hst]
  | cons i is ih =>
    obtain ⟨u, hu⟩ := exists_executes i s
    rw [execAll_cons hu.exec_eq] at h
    rw [List.cons_append, execAll_cons hu.exec_eq, ih h]

/-- `t` stands as PUSH of register `r` left `s`. -/
structure Holds (s t : State) (r : Fin 8) : Prop where
  /-- the registers are those PUSH left -/
  reg_eq : ∀ q, t.reg q = (s.pushed r).reg q
  /-- the byte at SP is the one PUSH stored -/
  byte_eq : t.memRead t.sp = s.pushValue r

theorem Holds.sp_eq (h : Holds s t r) : t.sp = s.sp - 1 := (h.reg_eq Config.spIndex).trans (s.pushed_sp r)

/-- PUSH leaves its own state so. -/
theorem holds_pushed (hwf : s.mem.wf) (r : Fin 8) (p : PcVal) : Holds s ((s.pushed r).setPc p) r := by
  refine ⟨fun _ => rfl, ?_⟩
  rw [State.setPc_memRead_sp, State.memRead, State.pushed_sp, State.read_pushed_sp hwf]

/-- From such a state POP brings SP back: into R7 too, if it was R7 that was pushed. -/
theorem Holds.poppedSp_eq (h : Holds s t r) (hsp : s.sp ≠ 0) (hq : q = Config.spIndex → r = Config.spIndex) :
    poppedSp t q = s.sp.toNat := by
  by_cases hq7 : q = Config.spIndex
  · rw [hq7, poppedSp_spIndex, h.byte_eq, State.pushValue, if_pos (hq hq7), pred_toNat_succ hsp]
  · rw [poppedSp_of_ne t hq7, h.sp_eq, pred_toNat_succ hsp]

/-- From such a state POP completes: SP is back, the register named gets the pushed byte, and the rest is as before PUSH. -/
theorem Holds.exec_pop (h : Holds s t r) (hsp : s.sp ≠ 0) (ha : a.toNat = q.val)
    (hq : q = Config.spIndex → r = Config.spIndex) :
    ∃ u, exec (.pop a) t = .next u ∧ u.reg Config.spIndex = s.sp ∧ (q ≠ Config.spIndex → u.reg q = s.pushValue r) ∧
      (∀ p, p ≠ q → p ≠ Config.spIndex → u.reg p = s.reg p) ∧ u.mem = t.mem := by
  have hpop := h.poppedSp_eq hsp hq
  have hle : poppedSp t q ≤ 255 := by
    have hlt := s.sp.isLt
    omega
  refine ⟨_, exec_pop_of_eq ha hle, ?_, fun hne => (t.popped_reg_same hne).trans h.byte_eq, fun p hpq hp => ?_, rfl⟩
  · exact (t.popped_sp q).trans (by rw [hpop, BitVec.ofNat_toNat, BitVec.setWidth_eq])
  · exact (t.popped_reg_other hpq hp).trans ((h.reg_eq p).trans (s.pushed_reg r hp))

/-- From such a state POP of the register pushed restores every register. -/
theorem Holds.exec_pop_restores (h : Holds s t r) (hsp : s.sp ≠ 0) (ha : a.toNat = r.val) :
    ∃ u, exec (.pop a) t = .next u ∧ (∀ p, u.reg p = s.reg p) ∧ u.mem = t.mem := by
  obtain ⟨u, hu, husp, hur, hother, hmem⟩ := h.exec_pop hsp ha id
  refine ⟨u, hu, fun p => ?_, hmem⟩
  by_cases hp : p = Config.spIndex
  · exact hp ▸ husp
  · by_cases hpr : p = r
    · rw [hpr] at hp ⊢
      rw [hur hp, State.pushValue, if_neg hp]
    · exact hother p hpr hp

/-- Settles O37: after PUSH the state `Holds` its byte, and POP then restores or copies. -/
theorem pushThenPopRestores : Obligations.PushThenPopRestores := by
  intro a b r q s ha hb hsp hwf
  have hholds := holds_pushed hwf r (s.pc + 2)
  refine ⟨?_, fun hr hq => ?_⟩
  · obtain ⟨u, hu, hreg, -⟩ := hholds.exec_pop_restores hsp ha
    exact ⟨u, by rw [execAll_cons (exec_push_of_eq ha hsp), execAll_cons hu, execAll], hreg⟩
  · obtain ⟨u, hu, husp, huq, hother, -⟩ := hholds.exec_pop hsp hb fun e => absurd e hq
    refine ⟨u, by rw [execAll_cons (exec_push_of_eq ha hsp), execAll_cons hu, execAll], ?_, fun p hp => ?_⟩
    · rw [huq hq, State.pushValue, if_neg hr]
    · by_cases hp7 : p = Config.spIndex
      · exact hp7 ▸ husp
      · exact hother p hp hp7

theorem State.wf_pushed (hwf : s.mem.wf) (r : Fin 8) : (s.pushed r).mem.wf := by
  rw [State.pushed_mem]
  exact Memory.wf_write_addr hwf _ _

@[simp] theorem State.setPc_pushed_sp (s : State) (r : Fin 8) (p : PcVal) : ((s.pushed r).setPc p).sp = s.sp - 1 :=
  s.pushed_sp r

theorem sp_ne_zero_of_lt {n : Nat} (h : n + 1 ≤ s.sp.toNat) : s.sp ≠ 0 := fun e => by
  rw [e] at h
  exact absurd h (Nat.not_succ_le_zero n)

/-- `is` completes from `s`, restores every register, and keeps every byte outside the `n` slots below SP. -/
def Restores (is : List Instr) (n : Nat) (s : State) : Prop :=
  ∃ t, execAll is s = .next t ∧ (∀ q, t.reg q = s.reg q) ∧
    ∀ x, x + n < s.sp.toNat ∨ s.sp.toNat ≤ x → t.mem.read x = s.mem.read x

/-- What restores after a PUSH keeps the byte it stored, which lies at its SP; so the POP of the same register undoes
that PUSH. -/
theorem Restores.push_pop {is : List Instr} {n : Nat} (hwf : s.mem.wf) (hsp : s.sp ≠ 0) (ha : a.toNat = r.val)
    (h : Restores is n ((s.pushed r).setPc (s.pc + 2))) : Restores (.push a :: (is ++ [.pop a])) (n + 1) s := by
  obtain ⟨t, ht, hreg, hkept⟩ := h
  rw [State.setPc_pushed_sp] at hkept
  have htsp : t.sp = s.sp - 1 := (hreg Config.spIndex).trans (s.pushed_sp r)
  have hholds : Holds s t r := by
    refine ⟨hreg, ?_⟩
    rw [htsp, State.memRead, hkept _ (.inr (Nat.le_refl _))]
    exact State.read_pushed_sp hwf r
  obtain ⟨u, hu, hureg, humem⟩ := hholds.exec_pop_restores hsp ha
  refine ⟨u, ?_, hureg, fun x hx => ?_⟩
  · rw [execAll_cons (exec_push_of_eq ha hsp), execAll_append ht, execAll_cons hu, execAll]
  · have hsucc := pred_toNat_succ hsp
    rw [humem, hkept x (by omega), State.setPc_mem, State.read_pushed hwf, if_neg (by omega)]

/-- Settles O38, by induction on the list: the outer PUSH and POP stand around the inner ones (`Restores.push_pop`). -/
theorem reversedPopsRestoreEveryRegister : Obligations.ReversedPopsRestoreEveryRegister := by
  intro as
  induction as with
  | nil => exact fun s _ _ _ => ⟨s, rfl, fun _ => rfl, fun _ _ => rfl⟩
  | cons a as ih =>
    intro s hnames hlen hwf
    rw [List.length_cons] at hlen
    obtain ⟨ha, hnames⟩ := List.forall_mem_cons.mp hnames
    have hsp := sp_ne_zero_of_lt hlen
    have hsucc := pred_toNat_succ hsp
    have hinner := ih ((s.pushed ⟨a.toNat, ha⟩).setPc (s.pc + 2)) hnames (by rw [State.setPc_pushed_sp]; omega)
      (State.wf_pushed hwf _)
    rw [List.map_cons, List.cons_append, List.reverse_cons, List.map_append, ← List.append_assoc, List.length_cons]
    exact Restores.push_pop hwf hsp rfl hinner

/-- Settles O39, by induction on the list: each PUSH takes one off SP. -/
theorem stackPointerCountsPushes : Obligations.StackPointerCountsPushes := by
  intro as
  induction as with
  | nil =>
    refine fun s _ _ => ⟨s, rfl, rfl, rfl, fun hzero a ha => ?_⟩
    have hsp : s.sp = 0 := BitVec.eq_of_toNat_eq hzero.symm
    exact execPushUnder_of_sp_zero .draw ha hsp
  | cons a as ih =>
    intro s hnames hlen
    rw [List.length_cons] at hlen ⊢
    obtain ⟨ha, hnames⟩ := List.forall_mem_cons.mp hnames
    have hsp := sp_ne_zero_of_lt hlen
    have hsucc := pred_toNat_succ hsp
    obtain ⟨t, ht, htsp, htstate, hbottom⟩ :=
      ih ((s.pushed ⟨a.toNat, ha⟩).setPc (s.pc + 2)) hnames (by rw [State.setPc_pushed_sp]; omega)
    rw [State.setPc_pushed_sp] at htsp hbottom
    refine ⟨t, ?_, by omega, htstate, fun hall => hbottom (by omega)⟩
    rw [List.map_cons, execAll_cons (exec_push_of_eq (r := ⟨a.toNat, ha⟩) rfl hsp), ht]

end Sys2Proof.Machine
end

section
/-! PROOFS. Reset, boot and the boundary (10_state.md R40 to R46, 70_reset_and_hazards.md R170, R171). -/

namespace Sys2Proof.Machine

variable {s t : State}

/-! ### Reset -/

@[simp] theorem State.resetDrawing_sp (d : Vector Byte 7) : (State.resetDrawing d).sp = Config.spReset := by
  simp [State.sp, State.reg, State.resetDrawing, Config.spIndex]

/-- Settles O1: Reset is a record literal; the registers are the draw with SP pushed behind it. -/
theorem resetLeavesTheSpecifiedState : Obligations.ResetLeavesTheSpecifiedState := by
  refine ⟨⟨Config.resetDraw, rfl⟩, fun d => ?_⟩
  refine ⟨fun _ => rfl, State.resetDrawing_sp d, fun q => ?_, rfl, rfl, rfl, rfl, ?_, rfl⟩
  · simp [State.reg, State.resetDrawing]
  · simp [State.resetDrawing]

/-- A state with canonical memory that is otherwise as Reset leaves it meets the invariant. -/
theorem State.Inv.of_reset {d : Vector Byte 7} (hwf : s.mem.wf) (h : { s with mem := [] } = State.resetDrawing d) :
    s.Inv := by
  have hs : s = { State.resetDrawing d with mem := s.mem } := by rw [← h]
  rw [hs]
  exact ⟨hwf, Nat.zero_le _, Nat.zero_le _, fun _ => ⟨rfl, rfl⟩, nofun, nofun⟩

theorem Memory.wf_nil : Memory.wf [] := ⟨List.Pairwise.nil, nofun⟩

/-- Settles O41: Reset's memory is empty. -/
theorem resetMeetsTheInvariant : Obligations.ResetMeetsTheInvariant :=
  fun d => State.Inv.of_reset (d := d) Memory.wf_nil rfl

/-! ### Loading an image -/

/-- Loading writes memory alone. -/
theorem State.storeBytes_withMem (s : State) (a : Nat) (image : List Byte) :
    { s.storeBytes a image with mem := [] } = { s with mem := [] } := by
  induction image generalizing s a with
  | nil => rfl
  | cons v vs ih => exact ih (s.memWrite (BitVec.ofNat 8 a) v) (a + 1)

theorem State.wf_storeBytes (hwf : s.mem.wf) (a : Nat) (image : List Byte) : (s.storeBytes a image).mem.wf := by
  induction image generalizing s a with
  | nil => exact hwf
  | cons v vs ih => exact ih (s := s.memWrite (BitVec.ofNat 8 a) v) (Memory.wf_write_addr hwf _ _) (a + 1)

/-- Below the first address loaded, memory is as before. -/
theorem State.read_storeBytes_below (hwf : s.mem.wf) {a x : Nat} {image : List Byte} (hlen : a + image.length ≤ 256)
    (hx : x < a) : (s.storeBytes a image).mem.read x = s.mem.read x := by
  induction image generalizing s a with
  | nil => rfl
  | cons v vs ih =>
    rw [List.length_cons] at hlen
    rw [State.storeBytes, ih (Memory.wf_write_addr hwf _ _) (by omega) (by omega), State.memWrite_mem,
      Memory.read_write hwf.1, BitVec.toNat_ofNat, if_neg (by omega)]

/-- From the first address loaded on, memory holds the image, and past it what it held before. -/
theorem State.read_storeBytes (hwf : s.mem.wf) {a : Nat} {image : List Byte} (hlen : a + image.length ≤ 256) (k : Nat) :
    (s.storeBytes a image).mem.read (a + k) = image.getD k (s.mem.read (a + k)) := by
  induction image generalizing s a k with
  | nil => rfl
  | cons v vs ih =>
    rw [List.length_cons] at hlen
    have hwf' : (s.memWrite (BitVec.ofNat 8 a) v).mem.wf := Memory.wf_write_addr hwf _ _
    have haddr : (BitVec.ofNat 8 a).toNat = a := by rw [BitVec.toNat_ofNat]; omega
    have hread : ∀ x, (s.memWrite (BitVec.ofNat 8 a) v).mem.read x = if x = a then v else s.mem.read x := fun x => by
      rw [State.memWrite_mem, Memory.read_write hwf.1, haddr]
    rw [State.storeBytes]
    cases k with
    | zero =>
      have hkept := State.read_storeBytes_below hwf' (a := a + 1) (image := vs) (by omega) (Nat.lt_succ_self a)
      exact hkept.trans ((hread a).trans (if_pos rfl))
    | succ k =>
      have hk := ih hwf' (a := a + 1) (by omega) k
      rw [Nat.add_right_comm] at hk
      rw [← Nat.add_assoc, hk, hread, if_neg (by omega), List.getD_cons_succ]

theorem boot_eq_some_iff {d : Vector Byte 7} {image : List Byte} {b : Block} :
    boot d image = some b ↔
      image.length ≤ 256 ∧ b = { phase := .started, engine := (State.resetDrawing d).storeBytes 0 image } := by
  by_cases h : image.length ≤ 256
  · simp [boot, State.loadImage, Config.memSize_eq, Config.loadBase_eq, h, eq_comm]
  · simp [boot, State.loadImage, Config.memSize_eq, h]

/-- Settles O42: an image is loaded over Reset, and loading keeps memory canonical and the rest as it is. -/
theorem bootedBlockMeetsTheInvariant : Obligations.BootedBlockMeetsTheInvariant := by
  intro d image b hb
  obtain ⟨-, rfl⟩ := boot_eq_some_iff.mp hb
  exact State.Inv.of_reset (d := d) (State.wf_storeBytes Memory.wf_nil 0 image) (State.storeBytes_withMem _ 0 image)

/-- Settles O45: the image lies over Reset's zeros (`State.read_storeBytes` from address 0). -/
theorem bootPlacesTheImage : Obligations.BootPlacesTheImage := by
  intro d image
  constructor
  · refine fun hlen => ⟨_, boot_eq_some_iff.mpr ⟨hlen, rfl⟩, rfl, fun x => ?_, State.storeBytes_withMem _ 0 image⟩
    have hx := State.read_storeBytes (s := State.resetDrawing d) Memory.wf_nil (a := 0) (by rwa [Nat.zero_add]) x
    rwa [Nat.zero_add] at hx
  · refine fun hlen => Option.eq_none_iff_forall_ne_some.mpr fun b hb => ?_
    exact absurd (boot_eq_some_iff.mp hb).1 (Nat.not_le.mpr hlen)

/-! ### The boundary -/

theorem Block.applyAll_cons {b b' : Block} {x : Transaction} (h : b.apply x = some b') (xs : List Transaction) :
    b.applyAll (x :: xs) = b'.applyAll xs := by
  simp only [Block.applyAll, h]

/-- Before Start the Loads of an image store its bytes, and what follows goes on from there. -/
theorem Block.applyAll_loadsFrom (s : State) (a : Nat) (image : List Byte) (xs : List Transaction) :
    Block.applyAll { phase := .awaitingStart, engine := s } (loadsFrom a image ++ xs) =
      Block.applyAll { phase := .awaitingStart, engine := s.storeBytes a image } xs := by
  induction image generalizing s a with
  | nil => rfl
  | cons v vs ih => exact ih (s.memWrite (BitVec.ofNat 8 a) v) (a + 1)

/-- Settles O46: Reset, then the Loads (`Block.applyAll_loadsFrom`), then Start. -/
theorem bootIsResetLoadStart : Obligations.BootIsResetLoadStart := by
  intro b d image hlen
  rw [boot_eq_some_iff.mpr ⟨hlen, rfl⟩, Block.applyAll_cons (b' := Block.afterReset d) rfl, Block.afterReset,
    Block.applyAll_loadsFrom]
  rfl

/-- Settles O47: each clause is the transaction's arm of `Block.apply` at its phase; a step always answers a state. -/
theorem boundaryAllowsOnlyTheProtocol : Obligations.BoundaryAllowsOnlyTheProtocol := by
  intro b
  refine ⟨fun _ => rfl, fun hp => ?_, fun hp => ?_, fun hend => ?_, fun hp hs => ?_⟩
  · simp [Block.apply, hp]
  · simp [Block.apply, hp]
  · cases hp : b.phase with
    | awaitingStart => simp [Block.apply, hp]
    | started => simp [Block.apply, hp, if_neg hend]
  · obtain ⟨t, ht, -⟩ := exists_steps b.engine
    exact ⟨t, ht, by simp [Block.apply, hp, hs, ht]⟩

theorem State.byteIfPresent_of_le (s : State) {a : Nat} (h : a ≤ 255) : s.byteIfPresent a = some (s.mem.read a) :=
  if_pos (Nat.lt_succ_of_le h)

theorem State.byteIfPresent_of_lt (s : State) {a : Nat} (h : 255 < a) : s.byteIfPresent a = none :=
  if_neg (Nat.not_lt.mpr h)

/-- Settles O48: each byte is `State.byteIfPresent` of its address. -/
theorem observationsReportTheState : Obligations.ObservationsReportTheState := by
  intro b
  refine ⟨rfl, fun _ => rfl, fun h => b.engine.byteIfPresent_of_le h, fun h => ?_, fun h => ?_,
    fun h => b.engine.byteIfPresent_of_lt h, fun h => ?_, fun h => ?_, rfl⟩
  · exact b.engine.byteIfPresent_of_le (Nat.add_le_add_right h 1)
  · exact b.engine.byteIfPresent_of_le (Nat.add_le_add_right h 2)
  · exact b.engine.byteIfPresent_of_lt (Nat.add_lt_add_right h 1)
  · exact b.engine.byteIfPresent_of_lt (Nat.add_lt_add_right h 2)

/-! ### Fault entry -/

/-- Settles O20: fault entry writes the record and the engine state, and the codes are those of R140. -/
theorem faultEntryWritesTheRecord : Obligations.FaultEntryWritesTheRecord :=
  ⟨fun _ _ _ => ⟨rfl, rfl, rfl, rfl, rfl, rfl, rfl, rfl⟩, rfl, rfl, rfl, rfl, rfl⟩

/-- Settles O49: entry of the model-only fault writes `fault_pc`, the engine state and the fault's name. -/
theorem unwrittenFaultIsEnteredLikeAnyOther : Obligations.UnwrittenFaultIsEnteredLikeAnyOther :=
  fun s r => ⟨raiseFrom_unwritten s r, rfl, rfl, rfl, rfl, rfl, rfl, rfl, rfl, rfl, rfl⟩

end Sys2Proof.Machine
end

section
/-! PROOFS. The opcode map byte by byte (30_encoding.md R75 to R77). -/

namespace Sys2Proof

/-- The bytes listed are opcodes. -/
theorem exists_opcode_of_mem {op : Byte} (h : op ∈ [(0x01 : Byte), 0x45, 0x46, 0x47, 0x82, 0xA2]) :
    ∃ m : Mnemonic, op = m.opcode := by
  simp only [List.mem_cons, List.not_mem_nil, or_false] at h
  rcases h with h | h | h | h | h | h
  · exact ⟨.hlt, h⟩
  · exact ⟨.push, h⟩
  · exact ⟨.pop, h⟩
  · exact ⟨.prn, h⟩
  · exact ⟨.ldi, h⟩
  · exact ⟨.mul, h⟩

/-- Settles O2: the six words are `decode_opcode` at each mnemonic; the table words are evaluated. -/
theorem opcodeMapWordsDecode : Obligations.OpcodeMapWordsDecode :=
  ⟨decode_opcode .hlt _ _, decode_opcode .ldi _ _, decode_opcode .prn _ _, decode_opcode .mul _ _, decode_opcode .push _ _,
    decode_opcode .pop _ _, by decide, by decide, by decide⟩

/-- Settles O3: a listed byte is a mnemonic's opcode; a byte that finds a row is one of them. -/
theorem otherOpcodesAreRejected : Obligations.OtherOpcodesAreRejected := by
  refine fun op b1 b2 => ⟨fun h => ?_, fun h => ?_⟩
  · obtain ⟨m, rfl⟩ := exists_opcode_of_mem h
    exact ⟨_, decode_opcode m b1 b2⟩
  · cases hrow : lookupOpcode op with
    | none => simp only [decode, hrow]
    | some row => exact absurd ((lookupOpcode_some hrow).1 ▸ Machine.opcode_mem row.mnemonic) h

end Sys2Proof
end

section
/-! PROOFS. Decimal text (10_state.md R40): its digits, and the value they read back as. -/

namespace Sys2Proof.Machine

theorem digitValue_digitChar : ∀ k < 10, digitValue (digitChar k) = some k := by decide

theorem digitChar_eq_zero : ∀ k < 10, digitChar k = '0' → k = 0 := by decide

/-- Reading one more decimal digit. -/
theorem digitsFrom_digitChar {k : Nat} (hk : k < 10) (acc : Nat) (cs : List Char) :
    digitsFrom 10 acc (digitChar k :: cs) = digitsFrom 10 (10 * acc + k) cs := by
  simp only [digitsFrom, digitValue_digitChar k hk, if_pos hk]

/-- The text of a byte has one, two or three digits, with no leading zero where it has more than one. -/
theorem decimalText_cases (v : Byte) :
    (v.toNat < 10 ∧ decimalText v = [digitChar v.toNat]) ∨
    (10 ≤ v.toNat ∧ v.toNat < 100 ∧ decimalText v = [digitChar (v.toNat / 10), digitChar (v.toNat % 10)]) ∨
    (100 ≤ v.toNat ∧
      decimalText v = [digitChar (v.toNat / 100), digitChar (v.toNat / 10 % 10), digitChar (v.toNat % 10)]) := by
  rcases Nat.lt_or_ge v.toNat 10 with h10 | h10
  · have h100 : ¬ v.toNat ≥ 100 := by omega
    exact .inl ⟨h10, by simp [decimalText, h100, Nat.not_le.mpr h10, Nat.mod_eq_of_lt h10]⟩
  · rcases Nat.lt_or_ge v.toNat 100 with h100 | h100
    · have hten : v.toNat / 10 % 10 = v.toNat / 10 := by omega
      exact .inr (.inl ⟨h10, h100, by simp [decimalText, Nat.not_le.mpr h100, h10, hten]⟩)
    · exact .inr (.inr ⟨h100, by simp [decimalText, h100, h10]⟩)

/-- A byte's text reads back in base 10 as its value. -/
theorem numberIn_decimalText (v : Byte) : numberIn 10 (decimalText v) = some v.toNat := by
  have hlt := v.isLt
  rcases decimalText_cases v with ⟨h, e⟩ | ⟨-, h, e⟩ | ⟨-, e⟩
  · rw [e, numberIn, digitsFrom_digitChar h, digitsFrom, Nat.mul_zero, Nat.zero_add]
  · rw [e, numberIn, digitsFrom_digitChar (by omega), digitsFrom_digitChar (by omega), digitsFrom, Option.some.injEq]
    omega
  · rw [e, numberIn, digitsFrom_digitChar (by omega), digitsFrom_digitChar (by omega), digitsFrom_digitChar (by omega),
      digitsFrom, Option.some.injEq]
    omega

/-- A text that begins with the digit 0 is the text of 0. -/
theorem eq_zero_of_head_decimalText {v : Byte} (h : (decimalText v).head? = some '0') : v = 0 := by
  have hlt := v.isLt
  rcases decimalText_cases v with ⟨h10, e⟩ | ⟨h10, h100, e⟩ | ⟨h100, e⟩
  · rw [e, List.head?_cons, Option.some.injEq] at h
    exact BitVec.eq_of_toNat_eq (digitChar_eq_zero _ h10 h)
  · rw [e, List.head?_cons, Option.some.injEq] at h
    have hzero := digitChar_eq_zero _ (by omega) h
    omega
  · rw [e, List.head?_cons, Option.some.injEq] at h
    have hzero := digitChar_eq_zero _ (by omega) h
    omega

theorem decimalText_zero : decimalText 0 = ['0'] := by decide

/-- Settles O8: the text by its number of digits (`decimalText_cases`). -/
theorem renderedLineIsDecimal : Obligations.RenderedLineIsDecimal :=
  fun v => ⟨numberIn_decimalText v, eq_zero_of_head_decimalText, decimalText_zero, rfl⟩

end Sys2Proof.Machine
end

section
/-! PROOFS. The assembler text (30_encoding.md R80): the canonical text of an instruction is cut into its mnemonic and
operands, and each operand reads back. -/

namespace Sys2Proof.Machine

/-! ### Operands -/

/-- Text of an operand: no blank and no comma in it. -/
def PlainText (cs : List Char) : Prop := ∀ c ∈ cs, isBlank c = false ∧ (c == ',') = false

theorem plain_digitChar : ∀ k < 10, isBlank (digitChar k) = false ∧ (digitChar k == ',') = false := by decide

theorem plainText_decimalText (v : Byte) : PlainText (decimalText v) := by
  have hlt := v.isLt
  intro c hc
  rcases decimalText_cases v with ⟨h, e⟩ | ⟨-, h, e⟩ | ⟨-, e⟩
  · rw [e, List.mem_singleton] at hc
    exact hc ▸ plain_digitChar _ h
  · simp only [e, List.mem_cons, List.not_mem_nil, or_false] at hc
    rcases hc with rfl | rfl <;> exact plain_digitChar _ (by omega)
  · simp only [e, List.mem_cons, List.not_mem_nil, or_false] at hc
    rcases hc with rfl | rfl | rfl <;> exact plain_digitChar _ (by omega)

theorem plainText_register {k : Nat} (hk : k < 10) : PlainText ['R', digitChar k] := by
  intro c hc
  simp only [List.mem_cons, List.not_mem_nil, or_false] at hc
  rcases hc with rfl | rfl
  · decide
  · exact plain_digitChar k hk

theorem registerText_of_lt {a : Byte} (h : a.toNat < 8) : registerText a = some ['R', digitChar a.toNat] :=
  if_pos (decide_eq_true h)

theorem registerText_eq_none {a : Byte} (h : namesRegister a = false) : registerText a = none := by
  rw [registerText, h]
  rfl

/-- A register's text reads back. -/
theorem readRegister_registerText {a : Byte} (h : a.toNat < 8) : readRegister ['R', digitChar a.toNat] = some a := by
  simp only [readRegister, digitValue_digitChar a.toNat (by omega), if_pos h, BitVec.ofNat_toNat, BitVec.setWidth_eq]

/-- A text that reads as a decimal number and has no 0b or 0x before it is read as that number. -/
theorem readImmediate_of_decimal {cs : List Char} {v : Byte} (hbase : ∀ c ds, cs ≠ '0' :: c :: ds)
    (hvalue : numberIn 10 cs = some v.toNat) : readImmediate cs = some v := by
  have hlt : v.toNat < 256 := v.isLt
  unfold readImmediate
  split
  next ds => exact absurd rfl (hbase 'b' ds)
  next ds => exact absurd rfl (hbase 'x' ds)
  next => simp only [hvalue, if_pos hlt, BitVec.ofNat_toNat, BitVec.setWidth_eq]

/-- An immediate's decimal text reads back: only 0 begins with the digit 0, and its text has no second character. -/
theorem readImmediate_decimalText (v : Byte) : readImmediate (decimalText v) = some v := by
  refine readImmediate_of_decimal (fun c ds e => ?_) (numberIn_decimalText v)
  have hv : v = 0 := eq_zero_of_head_decimalText (by rw [e, List.head?_cons])
  rw [hv, decimalText_zero] at e
  cases e

/-! ### Cutting a statement -/

theorem trimBlanks_space (cs : List Char) : trimBlanks (' ' :: cs) = trimBlanks cs := rfl

theorem dropWhile_of_no_blank {cs : List Char} (h : ∀ c ∈ cs, isBlank c = false) : cs.dropWhile isBlank = cs := by
  cases cs with
  | nil => rfl
  | cons c cs => rw [List.dropWhile_cons, h c List.mem_cons_self, if_neg Bool.false_ne_true]

theorem trimBlanks_of_no_blank {cs : List Char} (h : ∀ c ∈ cs, isBlank c = false) : trimBlanks cs = cs := by
  have hrev : ∀ c ∈ cs.reverse, isBlank c = false := fun c hc => h c (List.mem_reverse.mp hc)
  rw [trimBlanks, dropWhile_of_no_blank h, dropWhile_of_no_blank hrev, List.reverse_reverse]

theorem trimBlanks_of_plain {cs : List Char} (h : PlainText cs) : trimBlanks cs = cs :=
  trimBlanks_of_no_blank fun c hc => (h c hc).1

/-- A text without separators is one piece. -/
theorem cutAt_of_no_sep {sep : Char → Bool} {cs : List Char} (h : ∀ c ∈ cs, sep c = false) : cutAt sep cs = [cs] := by
  induction cs with
  | nil => rfl
  | cons c cs ih =>
    obtain ⟨hc, hcs⟩ := List.forall_mem_cons.mp h
    simp [cutAt, ih hcs, hc]

/-- Two texts without separators, with one separator between them, are two pieces. -/
theorem cutAt_append_sep {sep : Char → Bool} {w cs : List Char} {c : Char} (hw : ∀ c ∈ w, sep c = false) (hc : sep c = true)
    (hcs : ∀ c ∈ cs, sep c = false) : cutAt sep (w ++ c :: cs) = [w, cs] := by
  induction w with
  | nil => simp [cutAt, cutAt_of_no_sep hcs, hc]
  | cons d w ih =>
    obtain ⟨hd, hw⟩ := List.forall_mem_cons.mp hw
    simp [cutAt, ih hw, hd]

theorem readMnemonic_mnemonicText (m : Mnemonic) : readMnemonic (mnemonicText m) = some m := by
  cases m <;> decide

/-- The mnemonic of a statement is what stands before the first blank. -/
theorem takeWhile_mnemonicText (m : Mnemonic) (rest : List Char) :
    (mnemonicText m ++ ' ' :: rest).takeWhile (fun c => !isBlank c) = mnemonicText m := by
  cases m <;> rfl

/-- What stands after it, without the blank between, is the operands. -/
theorem trimBlanks_drop_mnemonicText (m : Mnemonic) {rest : List Char} (h : ∀ c ∈ rest, isBlank c = false) :
    trimBlanks ((mnemonicText m ++ ' ' :: rest).drop (mnemonicText m).length) = rest := by
  rw [List.drop_left, trimBlanks_space, trimBlanks_of_no_blank h]

/-- One operand's text is its own piece. -/
theorem operands_one {w : List Char} (hw : PlainText w) : (cutAt (fun c => c == ',') w).map trimBlanks = [w] := by
  rw [cutAt_of_no_sep fun c hc => (hw c hc).2, List.map_singleton, trimBlanks_of_plain hw]

/-- Two operands' texts are the two pieces at the comma. -/
theorem operands_two {w z : List Char} (hw : PlainText w) (hz : PlainText z) :
    (cutAt (fun c => c == ',') (w ++ ',' :: z)).map trimBlanks = [w, z] := by
  rw [cutAt_append_sep (fun c hc => (hw c hc).2) rfl fun c hc => (hz c hc).2, List.map_cons, List.map_singleton,
    trimBlanks_of_plain hw, trimBlanks_of_plain hz]

/-- Two plain texts with a comma between them hold no blank. -/
theorem no_blank_two {w z : List Char} (hw : PlainText w) (hz : PlainText z) : ∀ c ∈ w ++ ',' :: z, isBlank c = false := by
  intro c hc
  rcases List.mem_append.mp hc with hc | hc
  · exact (hw c hc).1
  · rcases List.mem_cons.mp hc with rfl | hc
    · decide
    · exact (hz c hc).1

theorem append_comma_ne_nil (w z : List Char) : w ++ ',' :: z ≠ [] :=
  List.append_ne_nil_of_right_ne_nil w (List.cons_ne_nil _ _)

/-! ### Statements -/

/-- A statement of PRN, PUSH or POP reads as that instruction of its register. -/
theorem readStatement_register {a : Byte} (ha : a.toNat < 8) {m : Mnemonic} {f : Byte → Instr}
    (hm : (m = .prn ∧ f = .prn) ∨ (m = .push ∧ f = .push) ∨ (m = .pop ∧ f = .pop)) :
    readStatement (mnemonicText m ++ ' ' :: ['R', digitChar a.toNat]) = some (f a) := by
  have hplain := plainText_register (k := a.toNat) (by omega)
  have hrest := trimBlanks_drop_mnemonicText m fun c hc => (hplain c hc).1
  simp only [readStatement, takeWhile_mnemonicText, hrest, readMnemonic_mnemonicText, operands_one hplain,
    if_neg (List.cons_ne_nil _ _)]
  rcases hm with ⟨rfl, rfl⟩ | ⟨rfl, rfl⟩ | ⟨rfl, rfl⟩ <;> simp only [readRegister_registerText ha, Option.map_some]

theorem readStatement_ldi {a : Byte} (ha : a.toNat < 8) (imm : Byte) :
    readStatement (mnemonicText .ldi ++ ' ' :: (['R', digitChar a.toNat] ++ ',' :: decimalText imm)) =
      some (.ldi a imm) := by
  have hplain := plainText_register (k := a.toNat) (by omega)
  have hrest := trimBlanks_drop_mnemonicText .ldi (no_blank_two hplain (plainText_decimalText imm))
  simp only [readStatement, takeWhile_mnemonicText, hrest, readMnemonic_mnemonicText,
    operands_two hplain (plainText_decimalText imm), if_neg (append_comma_ne_nil _ _), readRegister_registerText ha,
    readImmediate_decimalText]

theorem readStatement_mul {a b : Byte} (ha : a.toNat < 8) (hb : b.toNat < 8) :
    readStatement (mnemonicText .mul ++ ' ' :: (['R', digitChar a.toNat] ++ ',' :: ['R', digitChar b.toNat])) =
      some (.mul a b) := by
  have hplain := plainText_register (k := a.toNat) (by omega)
  have hplain' := plainText_register (k := b.toNat) (by omega)
  have hrest := trimBlanks_drop_mnemonicText .mul (no_blank_two hplain hplain')
  simp only [readStatement, takeWhile_mnemonicText, hrest, readMnemonic_mnemonicText, operands_two hplain hplain',
    if_neg (append_comma_ne_nil _ _), readRegister_registerText ha, readRegister_registerText hb]

/-- A well-formed instruction's text reads back. -/
theorem readStatement_of_wellFormed {i : Instr} (h : i.wellFormed = true) :
    ∃ cs, instrText i = some cs ∧ readStatement cs = some i := by
  cases i with
  | hlt => exact ⟨_, rfl, by decide⟩
  | ldi a imm =>
    have ha : a.toNat < 8 := of_decide_eq_true h
    exact ⟨_, by simp only [instrText, registerText_of_lt ha, Option.map_some]; rfl, readStatement_ldi ha imm⟩
  | mul a b =>
    obtain ⟨ha, hb⟩ := Bool.and_eq_true_iff.mp h
    have ha : a.toNat < 8 := of_decide_eq_true ha
    have hb : b.toNat < 8 := of_decide_eq_true hb
    exact ⟨_, by simp only [instrText, registerText_of_lt ha, registerText_of_lt hb]; rfl, readStatement_mul ha hb⟩
  | prn a =>
    have ha : a.toNat < 8 := of_decide_eq_true h
    exact ⟨_, by simp only [instrText, registerText_of_lt ha, Option.map_some]; rfl,
      readStatement_register ha (.inl ⟨rfl, rfl⟩)⟩
  | push a =>
    have ha : a.toNat < 8 := of_decide_eq_true h
    exact ⟨_, by simp only [instrText, registerText_of_lt ha, Option.map_some]; rfl,
      readStatement_register ha (.inr (.inl ⟨rfl, rfl⟩))⟩
  | pop a =>
    have ha : a.toNat < 8 := of_decide_eq_true h
    exact ⟨_, by simp only [instrText, registerText_of_lt ha, Option.map_some]; rfl,
      readStatement_register ha (.inr (.inr ⟨rfl, rfl⟩))⟩

/-- An instruction with a register operand of 8 or more has no text (R81). -/
theorem instrText_eq_none {i : Instr} (h : i.wellFormed = false) : instrText i = none := by
  cases i with
  | hlt => cases h
  | ldi | prn | push | pop => simp only [instrText, registerText_eq_none h, Option.map_none]
  | mul a b =>
    rcases Bool.and_eq_false_iff.mp h with ha | hb
    · simp only [instrText, registerText_eq_none ha]
    · cases ha : registerText a <;> simp only [instrText, ha, registerText_eq_none hb]

/-- Settles O7. -/
theorem assemblerTextReadsBack : Obligations.AssemblerTextReadsBack :=
  fun _ => ⟨readStatement_of_wellFormed, instrText_eq_none⟩

end Sys2Proof.Machine
end
